-- ==== Sys2Proof/Syntax.lean ====
section
/-! DEFINITION. The five commands (30_encoding.md R92), one constructor per row of spec/opcode_table.json.
No command has an immediate, a register number or a mode field (R91): every operand is in a fixed register (R95). -/

namespace Sys2Proof

/-- A legal command (30_encoding.md R92, R94). -/
inductive Instr where
  | expandKey
  | encryptBlock
  | decryptBlock
  | gcmSeal
  | gcmOpen
deriving DecidableEq, Repr

end Sys2Proof
end

