-- ==== Sys2Proof/Word.lean ====
section
/-! DEFINITION. The data the block moves: bytes, bus words, four-byte words, 16-byte blocks and the two multi-word
byte registers (00_scope.md R9, R10; 10_state.md R37, R38). -/

namespace Sys2Proof

/-- One byte (R9). -/
abbrev Byte := BitVec 8

/-- A 32-bit bus word, and the value of a 32-bit register (20_memory.md R62). -/
abbrev Word := BitVec 32

/-- A 4-byte word `[b0, b1, b2, b3]` in sequence order: a word of the key schedule (00_scope.md R10), a column of the
block state (40_aes_core.md R116), or the four bytes of a byte register that one bus access reaches (20_memory.md R63). -/
structure ByteWord where
  b0 : Byte
  b1 : Byte
  b2 : Byte
  b3 : Byte
deriving DecidableEq, Repr, Inhabited

/-- A 16-byte block (R13) as four 4-byte words: byte `r + 4c` is byte `r` of `c_c`. It is at once the 4x4 block state
of 40_aes_core.md R116, whose column `c` is `c_c`, so loading and storing the state are the identity. -/
structure Block where
  c0 : ByteWord
  c1 : ByteWord
  c2 : ByteWord
  c3 : ByteWord
deriving DecidableEq, Repr, Inhabited

/-- The 32 bytes of KEY (10_state.md R37); byte `i` is byte `i mod 4` of word `i / 4`. -/
structure KeyReg where
  w0 : ByteWord
  w1 : ByteWord
  w2 : ByteWord
  w3 : ByteWord
  w4 : ByteWord
  w5 : ByteWord
  w6 : ByteWord
  w7 : ByteWord
deriving DecidableEq, Repr, Inhabited

/-- The 12 bytes of NONCE (10_state.md R38), and the 12-byte nonce of 42_gcm_core.md R186. -/
structure NonceReg where
  w0 : ByteWord
  w1 : ByteWord
  w2 : ByteWord
deriving DecidableEq, Repr, Inhabited

end Sys2Proof
end

