-- ==== Sys2Proof/Decode.lean ====
section
/-! DEFINITION. Decoding a command word (30_encoding.md R90 to R98), total on all 2^32 words, and the encoder. -/

namespace Sys2Proof

/-- Why a command word is ILLEGAL (30_encoding.md R97). Both reasons complete with the one code ILLEGAL_CMD (60 R231). -/
inductive Illegal where
  /-- bits [31:4] are not zero (R91, R97) -/
  | mbzNotZero
  /-- OP is 0x0 or 0x6 to 0xF (R92, R97) -/
  | reservedOp (op : BitVec 4)
deriving DecidableEq, Repr

/-- The field OP, bits [3:0] (30_encoding.md R91). -/
def opField (p : Word) : BitVec 4 := p.extractLsb' 0 4

/-- The field MBZ, bits [31:4] (30_encoding.md R91). -/
def mbzField (p : Word) : BitVec 28 := p.extractLsb' 4 28

/-- Decode(p) of 30_encoding.md R94; an error is R94's ILLEGAL, with the reason. -/
def decode (p : Word) : Except Illegal Instr :=
  if mbzField p ≠ 0 then .error .mbzNotZero
  else if opField p = 0x1 then .ok .expandKey
  else if opField p = 0x2 then .ok .encryptBlock
  else if opField p = 0x3 then .ok .decryptBlock
  else if opField p = 0x4 then .ok .gcmSeal
  else if opField p = 0x5 then .ok .gcmOpen
  else .error (.reservedOp (opField p))

/-- The command word of a command, from the opcode map of 30_encoding.md R92. -/
def encode : Instr → Word
  | .expandKey => 0x00000001
  | .encryptBlock => 0x00000002
  | .decryptBlock => 0x00000003
  | .gcmSeal => 0x00000004
  | .gcmOpen => 0x00000005

/-- What the decoder reads from a word of the opcode table: one 32-bit bus word, whose bit n is bit n of the command
(20_memory.md R63), with the bits above `nbits` zero. -/
def decodeTableWord (nbits w : Nat) : Option Instr :=
  match decode (BitVec.ofNat 32 (w % 2 ^ nbits)) with
  | .ok i => some i
  | .error _ => none

end Sys2Proof
end

