-- ==== Sys2Proof/Machine/Bytes.lean ====
section
/-! DEFINITION. Byte sequences (00_scope.md R9), the big-endian lanes of the bus (20_memory.md R63) and the big-endian
integers inside the algorithms (20_memory.md R75). -/

namespace Sys2Proof

/-- The four bytes of a word, byte 0 first (R10). -/
def ByteWord.toList (w : ByteWord) : List Byte := [w.b0, w.b1, w.b2, w.b3]

/-- The 32-bit value with `b0` in bits [31:24] (20_memory.md R63). -/
def ByteWord.toWord (w : ByteWord) : Word := w.b0 ++ w.b1 ++ w.b2 ++ w.b3

/-- The four bytes of a bus word, bits [31:24] first (20_memory.md R63). -/
def ByteWord.ofWord (v : Word) : ByteWord :=
  ⟨v.extractLsb' 24 8, v.extractLsb' 16 8, v.extractLsb' 8 8, v.extractLsb' 0 8⟩

/-- The first four bytes of a sequence, 0x00 where it is shorter (the padding of WBYTES, 30_encoding.md R100). -/
def ByteWord.ofList (bs : List Byte) : ByteWord :=
  ⟨bs.getD 0 0, bs.getD 1 0, bs.getD 2 0, bs.getD 3 0⟩

/-- Byte `i` of a word, 0 to 3. -/
def ByteWord.byte (w : ByteWord) : Nat → Byte
  | 0 => w.b0
  | 1 => w.b1
  | 2 => w.b2
  | _ => w.b3

/-- The word of four zero bytes. -/
def ByteWord.zero : ByteWord := ⟨0, 0, 0, 0⟩

/-- Bytewise exclusive-or (R9). -/
def ByteWord.xor (a b : ByteWord) : ByteWord :=
  ⟨a.b0 ^^^ b.b0, a.b1 ^^^ b.b1, a.b2 ^^^ b.b2, a.b3 ^^^ b.b3⟩

/-- A byte function on each of the four bytes. -/
def ByteWord.map (f : Byte → Byte) (a : ByteWord) : ByteWord := ⟨f a.b0, f a.b1, f a.b2, f a.b3⟩

/-- The 16 bytes of a block, byte 0 first (R9). -/
def Block.toList (b : Block) : List Byte :=
  b.c0.toList ++ b.c1.toList ++ b.c2.toList ++ b.c3.toList

/-- The first 16 bytes of a sequence as a block, 0x00 where it is shorter (the zero padding of 42_gcm_core.md R188). -/
def Block.ofList (bs : List Byte) : Block :=
  ⟨.ofList bs, .ofList (bs.drop 4), .ofList (bs.drop 8), .ofList (bs.drop 12)⟩

/-- The all-zero block `0^16` (R9). -/
def Block.zero : Block := ⟨.zero, .zero, .zero, .zero⟩

/-- Bytewise exclusive-or of two blocks (R9). -/
def Block.xor (a b : Block) : Block :=
  ⟨a.c0.xor b.c0, a.c1.xor b.c1, a.c2.xor b.c2, a.c3.xor b.c3⟩

/-- int(X): the big-endian 128-bit value of a block (42_gcm_core.md R180). -/
def Block.toBits (b : Block) : BitVec 128 :=
  b.c0.toWord ++ b.c1.toWord ++ b.c2.toWord ++ b.c3.toWord

/-- The block whose big-endian value is `x` (42_gcm_core.md R180). -/
def Block.ofBits (x : BitVec 128) : Block :=
  ⟨.ofWord (x.extractLsb' 96 32), .ofWord (x.extractLsb' 64 32), .ofWord (x.extractLsb' 32 32), .ofWord (x.extractLsb' 0 32)⟩

/-- The 32 bytes of KEY, byte 0 first (10_state.md R37). -/
def KeyReg.toList (k : KeyReg) : List Byte :=
  k.w0.toList ++ k.w1.toList ++ k.w2.toList ++ k.w3.toList ++ k.w4.toList ++ k.w5.toList ++ k.w6.toList ++ k.w7.toList

/-- The 12 bytes of NONCE, byte 0 first (10_state.md R38). -/
def NonceReg.toList (n : NonceReg) : List Byte := n.w0.toList ++ n.w1.toList ++ n.w2.toList

/-- Word `i` of a block. -/
def Block.getWord (b : Block) : Nat → ByteWord
  | 0 => b.c0
  | 1 => b.c1
  | 2 => b.c2
  | _ => b.c3

/-- Replace word `i` of a block. -/
def Block.setWord (b : Block) (w : ByteWord) : Nat → Block
  | 0 => { b with c0 := w }
  | 1 => { b with c1 := w }
  | 2 => { b with c2 := w }
  | _ => { b with c3 := w }

/-- Word `i` of NONCE. -/
def NonceReg.getWord (n : NonceReg) : Nat → ByteWord
  | 0 => n.w0
  | 1 => n.w1
  | _ => n.w2

/-- Replace word `i` of NONCE. -/
def NonceReg.setWord (n : NonceReg) (w : ByteWord) : Nat → NonceReg
  | 0 => { n with w0 := w }
  | 1 => { n with w1 := w }
  | _ => { n with w2 := w }

/-- Word `i` of KEY. -/
def KeyReg.getWord (k : KeyReg) : Nat → ByteWord
  | 0 => k.w0
  | 1 => k.w1
  | 2 => k.w2
  | 3 => k.w3
  | 4 => k.w4
  | 5 => k.w5
  | 6 => k.w6
  | _ => k.w7

/-- Replace word `i` of KEY. -/
def KeyReg.setWord (k : KeyReg) (w : ByteWord) : Nat → KeyReg
  | 0 => { k with w0 := w }
  | 1 => { k with w1 := w }
  | 2 => { k with w2 := w }
  | 3 => { k with w3 := w }
  | 4 => { k with w4 := w }
  | 5 => { k with w5 := w }
  | 6 => { k with w6 := w }
  | _ => { k with w7 := w }

/-- The first `n` 4-byte words of a byte sequence: word `i` is bytes `[4i .. 4i+4)` (40_aes_core.md R128). -/
def wordsOf : Nat → List Byte → List ByteWord
  | 0, _ => []
  | n + 1, bs => ByteWord.ofList bs :: wordsOf n (bs.drop 4)

/-- The first `n` blocks of a byte sequence (42_gcm_core.md R183). -/
def blocksOf : Nat → List Byte → List Block
  | 0, _ => []
  | n + 1, bs => Block.ofList bs :: blocksOf n (bs.drop 16)

/-- Bytewise exclusive-or of a sequence with the first bytes of another (42_gcm_core.md R185). -/
def xorBytes (xs ks : List Byte) : List Byte := List.zipWith (· ^^^ ·) xs ks

/-- be64(n): n as 8 bytes, big-endian (42_gcm_core.md R188). -/
def be64 (n : Nat) : List Byte :=
  let v : BitVec 64 := BitVec.ofNat 64 n
  (ByteWord.ofWord (v.extractLsb' 32 32)).toList ++ (ByteWord.ofWord (v.extractLsb' 0 32)).toList

end Sys2Proof
end

