-- ==== Sys2Proof/Machine/AesCore.lean ====
section
/-! DEFINITION. The AES core functions of 40_aes_core.md, pure functions on bytes, words and blocks (R133). -/

namespace Sys2Proof.Aes

open Sys2Proof

/-- xtime: multiplication by x in GF(2^8) (R111). -/
def xtime (b : Byte) : Byte := (b <<< 1) ^^^ (if b.getLsbD 7 then 0x1B else 0x00)

/-- The loop of R112, `n` bits of `b` left, `p` the sum so far. -/
def gmulLoop : Nat → Byte → Byte → Byte → Byte
  | 0, _, _, p => p
  | n + 1, a, b, p => gmulLoop n (xtime a) (b >>> 1) (if b.getLsbD 0 then p ^^^ a else p)

/-- a • b in GF(2^8) (R112). -/
def gmul (a b : Byte) : Byte := gmulLoop 8 a b 0

/-- inv(b) = b^254 = b^2 • b^4 • b^8 • b^16 • b^32 • b^64 • b^128 (R113); it serves only to say what the S-box is (R114). -/
def inv (b : Byte) : Byte :=
  let b2 := gmul b b
  let b4 := gmul b2 b2
  let b8 := gmul b4 b4
  let b16 := gmul b8 b8
  let b32 := gmul b16 b16
  let b64 := gmul b32 b32
  let b128 := gmul b64 b64
  gmul b2 (gmul b4 (gmul b8 (gmul b16 (gmul b32 (gmul b64 b128)))))

/-- The affine map A of R114. -/
def affine (b : Byte) : Byte :=
  b ^^^ b.rotateLeft 1 ^^^ b.rotateLeft 2 ^^^ b.rotateLeft 3 ^^^ b.rotateLeft 4 ^^^ 0x63

/-- The rows of the S-box table (R114): column 0 is the leftmost byte. -/
def sboxRow : Nat → BitVec 128
  | 0x0 => 0x637c777bf26b6fc53001672bfed7ab76
  | 0x1 => 0xca82c97dfa5947f0add4a2af9ca472c0
  | 0x2 => 0xb7fd9326363ff7cc34a5e5f171d83115
  | 0x3 => 0x04c723c31896059a071280e2eb27b275
  | 0x4 => 0x09832c1a1b6e5aa0523bd6b329e32f84
  | 0x5 => 0x53d100ed20fcb15b6acbbe394a4c58cf
  | 0x6 => 0xd0efaafb434d338545f9027f503c9fa8
  | 0x7 => 0x51a3408f929d38f5bcb6da2110fff3d2
  | 0x8 => 0xcd0c13ec5f974417c4a77e3d645d1973
  | 0x9 => 0x60814fdc222a908846eeb814de5e0bdb
  | 0xa => 0xe0323a0a4906245cc2d3ac629195e479
  | 0xb => 0xe7c8376d8dd54ea96c56f4ea657aae08
  | 0xc => 0xba78252e1ca6b4c6e8dd741f4bbd8b8a
  | 0xd => 0x703eb5664803f60e613557b986c11d9e
  | 0xe => 0xe1f8981169d98e949b1e87e9ce5528df
  | _ => 0x8ca1890dbfe6426841992d0fb054bb16

/-- The rows of the inverse S-box table (R115). -/
def invSboxRow : Nat → BitVec 128
  | 0x0 => 0x52096ad53036a538bf40a39e81f3d7fb
  | 0x1 => 0x7ce339829b2fff87348e4344c4dee9cb
  | 0x2 => 0x547b9432a6c2233dee4c950b42fac34e
  | 0x3 => 0x082ea16628d924b2765ba2496d8bd125
  | 0x4 => 0x72f8f66486689816d4a45ccc5d65b692
  | 0x5 => 0x6c704850fdedb9da5e154657a78d9d84
  | 0x6 => 0x90d8ab008cbcd30af7e45805b8b34506
  | 0x7 => 0xd02c1e8fca3f0f02c1afbd0301138a6b
  | 0x8 => 0x3a9111414f67dcea97f2cfcef0b4e673
  | 0x9 => 0x96ac7422e7ad3585e2f937e81c75df6e
  | 0xa => 0x47f11a711d29c5896fb7620eaa18be1b
  | 0xb => 0xfc563e4bc6d279209adbc0fe78cd5af4
  | 0xc => 0x1fdda8338807c731b11210592780ec5f
  | 0xd => 0x60517fa919b54a0d2de57a9f93c99cef
  | 0xe => 0xa0e03b4dae2af5b0c8ebbb3c83539961
  | _ => 0x172b047eba77d626e169146355210c7d

/-- The byte of a table at (row, column) = (high nibble, low nibble) of `x` (R114). -/
def tableByte (row : Nat → BitVec 128) (x : Byte) : Byte :=
  (row (x.toNat / 16)).extractLsb' (8 * (15 - x.toNat % 16)) 8

/-- Sbox (R114). -/
def sbox (x : Byte) : Byte := tableByte sboxRow x

/-- InvSbox (R115). -/
def invSbox (x : Byte) : Byte := tableByte invSboxRow x

/-- A byte function on each byte of the block state. -/
def mapBytes (f : Byte → Byte) (s : Block) : Block := ⟨s.c0.map f, s.c1.map f, s.c2.map f, s.c3.map f⟩

/-- SubBytes (R117). -/
def subBytes (s : Block) : Block := mapBytes sbox s

/-- InvSubBytes (R121). -/
def invSubBytes (s : Block) : Block := mapBytes invSbox s

/-- ShiftRows: s'[r][c] = s[r][(c + r) mod 4] (R118). -/
def shiftRows (s : Block) : Block :=
  ⟨⟨s.c0.b0, s.c1.b1, s.c2.b2, s.c3.b3⟩,
   ⟨s.c1.b0, s.c2.b1, s.c3.b2, s.c0.b3⟩,
   ⟨s.c2.b0, s.c3.b1, s.c0.b2, s.c1.b3⟩,
   ⟨s.c3.b0, s.c0.b1, s.c1.b2, s.c2.b3⟩⟩

/-- InvShiftRows: s'[r][c] = s[r][(c - r) mod 4] (R122). -/
def invShiftRows (s : Block) : Block :=
  ⟨⟨s.c0.b0, s.c3.b1, s.c2.b2, s.c1.b3⟩,
   ⟨s.c1.b0, s.c0.b1, s.c3.b2, s.c2.b3⟩,
   ⟨s.c2.b0, s.c1.b1, s.c0.b2, s.c3.b3⟩,
   ⟨s.c3.b0, s.c2.b1, s.c1.b2, s.c0.b3⟩⟩

/-- The circulant product of R119 and R123: row `r` of the matrix is (k0, k1, k2, k3) rotated right by `r`. -/
def circulant (k0 k1 k2 k3 : Byte) (a : ByteWord) : ByteWord :=
  ⟨gmul k0 a.b0 ^^^ gmul k1 a.b1 ^^^ gmul k2 a.b2 ^^^ gmul k3 a.b3,
   gmul k3 a.b0 ^^^ gmul k0 a.b1 ^^^ gmul k1 a.b2 ^^^ gmul k2 a.b3,
   gmul k2 a.b0 ^^^ gmul k3 a.b1 ^^^ gmul k0 a.b2 ^^^ gmul k1 a.b3,
   gmul k1 a.b0 ^^^ gmul k2 a.b1 ^^^ gmul k3 a.b2 ^^^ gmul k0 a.b3⟩

/-- MixColumns on one column (R119). -/
def mixColumn (a : ByteWord) : ByteWord := circulant 0x02 0x03 0x01 0x01 a

/-- InvMixColumns on one column (R123). -/
def invMixColumn (a : ByteWord) : ByteWord := circulant 0x0e 0x0b 0x0d 0x09 a

/-- MixColumns (R119). -/
def mixColumns (s : Block) : Block := ⟨mixColumn s.c0, mixColumn s.c1, mixColumn s.c2, mixColumn s.c3⟩

/-- InvMixColumns (R123). -/
def invMixColumns (s : Block) : Block := ⟨invMixColumn s.c0, invMixColumn s.c1, invMixColumn s.c2, invMixColumn s.c3⟩

/-- Word `i` of a schedule; a word it does not have reads as zero, which no reachable state shows (log 11). -/
def wordAt (w : List ByteWord) (i : Nat) : ByteWord := w.getD i .zero

/-- The words w[4 rnd .. 4 rnd + 3] as a block (R120). -/
def roundKey (w : List ByteWord) (rnd : Nat) : Block :=
  ⟨wordAt w (4 * rnd), wordAt w (4 * rnd + 1), wordAt w (4 * rnd + 2), wordAt w (4 * rnd + 3)⟩

/-- AddRoundKey (R120). -/
def addRoundKey (w : List ByteWord) (rnd : Nat) (s : Block) : Block := s.xor (roundKey w rnd)

/-- RotWord (R125). -/
def rotWord (a : ByteWord) : ByteWord := ⟨a.b1, a.b2, a.b3, a.b0⟩

/-- SubWord (R126). -/
def subWord (a : ByteWord) : ByteWord := a.map sbox

/-- x^n in GF(2^8) (R127). -/
def xpow : Nat → Byte
  | 0 => 1
  | n + 1 => xtime (xpow n)

/-- Rcon[j] = [x^(j-1), 0, 0, 0] (R127). -/
def rcon (j : Nat) : ByteWord := ⟨xpow (j - 1), 0, 0, 0⟩

/-- Nk of a key of KL bytes (R124). -/
def nkOf (kl : Nat) : Nat := kl / 4

/-- Nr of a key of KL bytes (R124). -/
def nrOf (kl : Nat) : Nat := kl / 4 + 6

/-- The transformed previous word at index `i` (R128; 90_conflicts.md C2 for Nk = 8). -/
def scheduleTemp (nk i : Nat) (t : ByteWord) : ByteWord :=
  if i % nk = 0 then (subWord (rotWord t)).xor (rcon (i / nk))
  else if nk = 8 ∧ i % nk = 4 then subWord t
  else t

/-- `n` more words of a schedule whose words so far are `w` (the second loop of R128). -/
def expandLoop (nk : Nat) : Nat → List ByteWord → List ByteWord
  | 0, w => w
  | n + 1, w =>
    let i := w.length
    expandLoop nk n (w ++ [(wordAt w (i - nk)).xor (scheduleTemp nk i (wordAt w (i - 1)))])

/-- KeyExpansion (R128): the 4 (Nr + 1) words of the schedule of a key of 16, 24 or 32 bytes. -/
def keyExpansion (key : List Byte) : List ByteWord :=
  let nk := nkOf key.length
  expandLoop nk (4 * (nrOf key.length + 1) - nk) (wordsOf nk key)

/-- `n` full rounds of R130 from round `rnd` on. -/
def cipherRounds (w : List ByteWord) : Nat → Nat → Block → Block
  | 0, _, s => s
  | n + 1, rnd, s => cipherRounds w n (rnd + 1) (addRoundKey w rnd (mixColumns (shiftRows (subBytes s))))

/-- Cipher(in, w, Nr) (R130). -/
def cipher (w : List ByteWord) (nr : Nat) (input : Block) : Block :=
  addRoundKey w nr (shiftRows (subBytes (cipherRounds w (nr - 1) 1 (addRoundKey w 0 input))))

/-- The rounds `n` down to 1 of R131. -/
def invCipherRounds (w : List ByteWord) : Nat → Block → Block
  | 0, s => s
  | n + 1, s => invCipherRounds w n (invMixColumns (addRoundKey w (n + 1) (invSubBytes (invShiftRows s))))

/-- InvCipher(in, w, Nr) (R131). -/
def invCipher (w : List ByteWord) (nr : Nat) (input : Block) : Block :=
  addRoundKey w 0 (invSubBytes (invShiftRows (invCipherRounds w (nr - 1) (addRoundKey w nr input))))

end Sys2Proof.Aes
end

