-- ==== Sys2Proof/Config.lean ====
section
/-! DEFINITION. The parameters of 00_scope.md R7 that the machine uses by name, the OPEN parameter BASE, and the free
values: constants without a body, of which no proof can know a value. -/

namespace Sys2Proof.Config

open Sys2Proof

/-- P_AAD_MAX, the size of AAD_BUF in bytes (R7, 92 D8). -/
def aadMax : Nat := 256

/-- P_TEXT_MAX, the size of TEXT_BUF in bytes (R7, 92 D8). -/
def textMax : Nat := 16384

/-- The size of the register window in bytes (R7, 20_memory.md R60). -/
def windowSize : Nat := 0x8000

/-- OPEN: which multiple of the window size BASE is; the platform chooses it (20_memory.md R73; log 7). -/
opaque baseIndex : Nat

/-- BASE, the bus address of offset 0, a multiple of 0x8000 (20_memory.md R73). -/
def base : Nat := baseIndex * windowSize

/-- FREE VALUE: byte `i` of AAD_BUF as drawn at reset event `epoch` (70_reset_and_hazards.md R271; log 3). -/
opaque drawnAad (epoch i : Nat) : Byte

/-- FREE VALUE: byte `i` of TEXT_BUF as drawn at reset event `epoch` (70_reset_and_hazards.md R271; log 3). -/
opaque drawnText (epoch i : Nat) : Byte

/-- FREE VALUE: PEND after reset event `epoch` (10_state.md R45, R50; log 4). -/
opaque drawnPend (epoch : Nat) : Word

/-- FREE VALUE: word `i` of SCHED after reset event `epoch` (10_state.md R46, R50; log 4). -/
opaque drawnSched (epoch i : Nat) : ByteWord

/-- FREE VALUE: what the `n`-th read of BOUT, TAG or TEXT_BUF during BUSY returns (70_reset_and_hazards.md R277; log 2). -/
opaque busyRead (n : Nat) : Word

end Sys2Proof.Config
end

