-- ==== Sys2Proof/Machine/HostSyntax.lean ====
section
/-! DEFINITION. What the Host agent (00_scope.md R5) can do: bus accesses (20_memory.md R62) and the statements of a
host program (30_encoding.md R99), as syntax. Their meaning is in Machine/Bus.lean and Machine/HostAgent.lean. -/

namespace Sys2Proof.Machine

open Sys2Proof

/-- Where an access goes: an offset from BASE, as 20_memory.md R62 and every program of the spec write it, or a whole
bus address (R61, R73). -/
inductive Address where
  | offset (off : Nat)
  | bus (addr : Nat)
deriving DecidableEq, Repr

/-- The target of an access: its address and its width in bytes. Only width 4 exists (20_memory.md R62); the others are
here because R62 says what they get. -/
structure Target where
  addr : Address
  bytes : Nat := 4
deriving DecidableEq, Repr

/-- The kind of an access; a write carries its 32-bit value (20_memory.md R62). -/
inductive AccessKind where
  | read
  | write (v : Word)
deriving DecidableEq, Repr

/-- One bus access (20_memory.md R62). -/
structure Access where
  kind : AccessKind
  target : Target
deriving DecidableEq, Repr

/-- A Host variable that holds a word (30_encoding.md R99): one a program names, or the `t_k` of an RBYTES into the
byte-sequence variable `s` (R100). -/
inductive Var where
  | named (x : Nat)
  | part (s k : Nat)
deriving DecidableEq, Repr

/-- A basic statement of a host program (30_encoding.md R99), or the last part of an RBYTES, which no basic form of R99
has (R100). -/
inductive Stmt where
  /-- `W off, v` -/
  | write (t : Target) (v : Word)
  /-- `R off`, the value discarded -/
  | read (t : Target)
  /-- `R off -> x` -/
  | readTo (t : Target) (x : Var)
  /-- `EXPECT x == v` -/
  | expect (x : Var) (v : Word)
  /-- `s = the first n bytes of t_0 ‖ t_1 ‖ ...`, the end of `RBYTES off, n -> s` (R100) -/
  | bindBytes (s n : Nat)
  /-- `EXPECT s == bytes`, for the byte-sequence variable `s` of an RBYTES -/
  | expectBytes (s : Nat) (bs : List Byte)
  /-- `L:` -/
  | label (l : Nat)
  /-- `IF x[b] == 1 GOTO L` -/
  | ifGoto (x : Var) (b : Nat) (l : Nat)
deriving DecidableEq, Repr

/-- The bus transaction a statement issues, or none: the third column of R99's table. -/
def Stmt.access : Stmt → Option Access
  | .write t v => some ⟨.write v, t⟩
  | .read t => some ⟨.read, t⟩
  | .readTo t _ => some ⟨.read, t⟩
  | .expect _ _ => none
  | .bindBytes _ _ => none
  | .expectBytes _ _ => none
  | .label _ => none
  | .ifGoto _ _ _ => none

end Sys2Proof.Machine
end

