-- ==== Sys2Proof/Machine/State.lean ====
section
/-! DEFINITION. The state: the record of 10_state.md R20 field for field, the Host agent (00_scope.md R5), whose turn
comes next, and the counters that free values are applied to. Plain data throughout. -/

namespace Sys2Proof.Machine

open Sys2Proof

/-- The written bytes of a buffer, by byte index, in rising order; an index that is not listed has not been written
since reset and holds the byte drawn then (70_reset_and_hazards.md R271; log 3). -/
abbrev Memory := List Host.Cell

/-- The canonical form: indices strictly rising. An unlisted index has no written value, so no entry can equal it. -/
abbrev Memory.wf (m : Memory) : Prop := m.Pairwise (fun c d => c.1 < d.1)

/-- The Host agent: a host program (30_encoding.md R99), the position of its next statement, the variables that hold a
word and those that hold a byte sequence (R100), and whether an EXPECT has failed (log 9). -/
structure HostAgent where
  prog : List Stmt
  pos : Nat
  vars : List (Var × Word)
  byteVars : List (Nat × List Byte)
  failed : Bool
deriving DecidableEq, Repr

/-- Who moves next (00_scope.md R5): the Host, the Engine, or the reset input (70_reset_and_hazards.md R270). -/
inductive Turn where
  | host
  | engine
  | reset
deriving DecidableEq, Repr

/-- The machine's state. -/
structure State where
  /-- CTRL.IE (10_state.md R25) -/
  ie : Bool
  /-- STATUS.BUSY (R27) -/
  busy : Bool
  /-- STATUS.DONE (R28) -/
  doneBit : Bool
  /-- STATUS.OVR (R29) -/
  ovr : Bool
  /-- STATUS.SV (R30) -/
  sv : Bool
  /-- STATUS.ERR (R31) -/
  err : BitVec 4
  /-- STATUS.NR (R32) -/
  nr : BitVec 4
  /-- KEYLEN (R34) -/
  keylen : BitVec 8
  /-- AADLEN (R35) -/
  aadlen : Word
  /-- TEXTLEN (R36) -/
  textlen : Word
  /-- KEY (R37) -/
  key : KeyReg
  /-- NONCE (R38) -/
  nonce : NonceReg
  /-- TAG (R39) -/
  tag : Block
  /-- BIN (R40) -/
  bin : Block
  /-- BOUT (R41) -/
  bout : Block
  /-- AAD_BUF (R42) -/
  aadBuf : Memory
  /-- TEXT_BUF (R43) -/
  textBuf : Memory
  /-- PEND (R45) -/
  pend : Word
  /-- SCHED (R46) -/
  sched : List ByteWord
  /-- the model's own: which reset event the drawn bytes belong to (log 3) -/
  epoch : Nat
  /-- the model's own: how many free values reads during BUSY have drawn (log 2) -/
  busyReads : Nat
  /-- the Host agent (00_scope.md R5) -/
  host : HostAgent
  /-- the coming turns, first the next one (log 1) -/
  turns : List Turn
deriving DecidableEq, Repr

/-- Why the machine stops. All four are the Host's doing or the platform's; the block itself never faults. -/
inductive Fault where
  /-- BUS_ERROR (20_memory.md R66, 92 D44): raised by a Host access that is not 32 bits wide or not aligned. Safe. -/
  | busError
  /-- Raised by a Host access outside [BASE, BASE + 0x8000), which this block does not decode (20_memory.md R61; log 6). Safe. -/
  | notDecoded
  /-- Raised by an IF on a Host variable that no read has given a value (30_encoding.md R99), or by the end of an RBYTES
  whose words no read has given a value (R100; log 9). Safe. -/
  | unsetVariable
  /-- Raised by a GOTO whose label is not in the Host's program (30_encoding.md R99; log 9). Safe. -/
  | missingLabel
deriving DecidableEq, Repr

/-- Why the machine refuses an instruction. -/
inductive Refusal where
  /-- Raised by an arm of exec whose instruction has no meaning yet; no arm raises it. Safe. -/
  | notModelled (mnemonic : String)
deriving DecidableEq, Repr

/-- The block right after reset event `epoch` (10_state.md R50), with an idle Host and no turns listed. -/
def State.resetAt (epoch : Nat) : State where
  ie := false
  busy := false
  doneBit := false
  ovr := false
  sv := false
  err := 0
  nr := 0
  keylen := 0
  aadlen := 0
  textlen := 0
  key := ⟨⟨0, 0, 0, 0⟩, ⟨0, 0, 0, 0⟩, ⟨0, 0, 0, 0⟩, ⟨0, 0, 0, 0⟩, ⟨0, 0, 0, 0⟩, ⟨0, 0, 0, 0⟩, ⟨0, 0, 0, 0⟩, ⟨0, 0, 0, 0⟩⟩
  nonce := ⟨⟨0, 0, 0, 0⟩, ⟨0, 0, 0, 0⟩, ⟨0, 0, 0, 0⟩⟩
  tag := ⟨⟨0, 0, 0, 0⟩, ⟨0, 0, 0, 0⟩, ⟨0, 0, 0, 0⟩, ⟨0, 0, 0, 0⟩⟩
  bin := ⟨⟨0, 0, 0, 0⟩, ⟨0, 0, 0, 0⟩, ⟨0, 0, 0, 0⟩, ⟨0, 0, 0, 0⟩⟩
  bout := ⟨⟨0, 0, 0, 0⟩, ⟨0, 0, 0, 0⟩, ⟨0, 0, 0, 0⟩, ⟨0, 0, 0, 0⟩⟩
  aadBuf := []
  textBuf := []
  pend := Config.drawnPend epoch
  sched := (List.range 60).map (Config.drawnSched epoch)
  epoch := epoch
  busyReads := 0
  host := ⟨[], 0, [], [], false⟩
  turns := []

/-- The machine right after power-on, which is a reset event (70_reset_and_hazards.md R270). -/
def State.reset : State := State.resetAt 0

end Sys2Proof.Machine
end

