-- ==== Sys2Proof/Machine/Flags.lean ====
section
/-! DEFINITION. STATUS, CTRL, the result codes and the IRQ output (10_state.md R25 to R32, R48; 60_exceptions.md R230). -/

namespace Sys2Proof.Machine

open Sys2Proof

/-- The result codes a command can leave (60_exceptions.md R230). -/
inductive ResultCode where
  | ok
  | illegalCmd
  | invalidKeyLength
  | keyNotReady
  | length
  | authFail
deriving DecidableEq, Repr

/-- The number of a result code in STATUS.ERR (60_exceptions.md R230); 6 to 15 are never written. -/
def ResultCode.bits : ResultCode → BitVec 4
  | .ok => 0
  | .illegalCmd => 1
  | .invalidKeyLength => 2
  | .keyNotReady => 3
  | .length => 4
  | .authFail => 5

/-- One flag as a 32-bit value in bit 0. -/
def flagWord (b : Bool) : Word := if b then 1 else 0

/-- What a read of CTRL returns (10_state.md R25, 20_memory.md R67). -/
def ctrlWord (s : State) : Word := flagWord s.ie

/-- What a read of STATUS returns: NR in [11:8], ERR in [7:4], then SV, OVR, DONE, BUSY (10_state.md R26, 20_memory.md R67). -/
def statusWord (s : State) : Word :=
  (s.nr.zeroExtend 32 <<< 8) ||| (s.err.zeroExtend 32 <<< 4) ||| (flagWord s.sv <<< 3) |||
    (flagWord s.ovr <<< 2) ||| (flagWord s.doneBit <<< 1) ||| flagWord s.busy

/-- The write of `v` to CTRL: only bit 0 is stored (10_state.md R25). -/
def writeCtrl (v : Word) (s : State) : State := { s with ie := v.getLsbD 0 }

/-- The write of `v` to STATUS: bit 1 clears DONE, bit 2 clears OVR, nothing else acts (10_state.md R26). -/
def writeStatus (v : Word) (s : State) : State :=
  { s with doneBit := s.doneBit && !v.getLsbD 1, ovr := s.ovr && !v.getLsbD 2 }

/-- The IRQ output, a level: CTRL.IE and STATUS.DONE (10_state.md R48, 60_exceptions.md R239). -/
def irq (s : State) : Bool := s.ie && s.doneBit

/-- The key lengths EXPAND_KEY accepts (41_aes_commands.md R160). -/
def keyLengthLegal (kl : Nat) : Bool := kl == 16 || kl == 24 || kl == 32

/-- The length check of the GCM commands (43_gcm_commands.md R210, R211). -/
def lengthsLegal (s : State) : Bool :=
  s.aadlen.toNat ≤ Config.aadMax && s.textlen.toNat ≤ Config.textMax

end Sys2Proof.Machine
end

