-- ==== Sys2Proof/Machine/Ops.lean ====
section
/-! DEFINITION. The named operations over the state: the sparse buffers, the byte-array registers of the window
(10_state.md R21), accepting a command, completing one with its result code, and the reset event. Completing a command
with an error is this block's taking of an exception: it saves nothing and transfers control nowhere (60_exceptions.md
R241), and the Host's acknowledgement is a STATUS write (R242, `writeStatus`). -/

namespace Sys2Proof.Machine

open Sys2Proof

/-- The written byte at an index, if there is one. -/
def Memory.lookup : Memory → Nat → Option Byte
  | [], _ => none
  | (k, v) :: m, a => if a = k then some v else Memory.lookup m a

/-- Write one byte, keeping the indices strictly rising. -/
def Memory.store : Memory → Nat → Byte → Memory
  | [], a, b => [(a, b)]
  | (k, v) :: m, a, b =>
    if a < k then (a, b) :: (k, v) :: m
    else if a = k then (a, b) :: m
    else (k, v) :: Memory.store m a b

/-- Write a byte sequence from an index on. -/
def Memory.storeList : Memory → Nat → List Byte → Memory
  | m, _, [] => m
  | m, a, b :: bs => Memory.storeList (Memory.store m a b) (a + 1) bs

/-- Byte `i` of AAD_BUF: the byte last written, else the byte drawn at reset (70_reset_and_hazards.md R271). -/
def aadByte (s : State) (i : Nat) : Byte := (Memory.lookup s.aadBuf i).getD (Config.drawnAad s.epoch i)

/-- Byte `i` of TEXT_BUF: the byte last written, else the byte drawn at reset (70_reset_and_hazards.md R271). -/
def textByte (s : State) (i : Nat) : Byte := (Memory.lookup s.textBuf i).getD (Config.drawnText s.epoch i)

/-- Write bytes to TEXT_BUF from byte 0 on (43_gcm_commands.md R210, R211). -/
def storeText (bs : List Byte) (s : State) : State := { s with textBuf := Memory.storeList s.textBuf 0 bs }

/-- The byte-array registers and buffers of the window (10_state.md R21). -/
inductive ArrReg where
  | key
  | nonce
  | tag
  | bin
  | bout
  | aadBuf
  | textBuf
deriving DecidableEq, Repr

/-- start(R): the offset of byte 0 of a byte array (10_state.md R21). -/
def ArrReg.start : ArrReg → Nat
  | .key => 0x0020
  | .nonce => 0x0040
  | .tag => 0x0050
  | .bin => 0x0060
  | .bout => 0x0070
  | .aadBuf => 0x0100
  | .textBuf => 0x4000

/-- The number of bytes of a byte array (10_state.md R20). -/
def ArrReg.size : ArrReg → Nat
  | .key => 32
  | .nonce => 12
  | .tag => 16
  | .bin => 16
  | .bout => 16
  | .aadBuf => Config.aadMax
  | .textBuf => Config.textMax

/-- Whether an offset lies in a byte array. -/
def ArrReg.holds (r : ArrReg) (off : Nat) : Bool := r.start ≤ off && off < r.start + r.size

/-- The byte array holding an offset, if one does (20_memory.md R67); the ranges do not meet (10_state.md R21). -/
def arrayAt (off : Nat) : Option ArrReg :=
  if ArrReg.key.holds off then some .key
  else if ArrReg.nonce.holds off then some .nonce
  else if ArrReg.tag.holds off then some .tag
  else if ArrReg.bin.holds off then some .bin
  else if ArrReg.bout.holds off then some .bout
  else if ArrReg.aadBuf.holds off then some .aadBuf
  else if ArrReg.textBuf.holds off then some .textBuf
  else none

/-- The four bytes of a byte array from index `i` on, `i` a multiple of 4 (20_memory.md R67). -/
def readArray (r : ArrReg) (i : Nat) (s : State) : ByteWord :=
  match r with
  | .key => s.key.getWord (i / 4)
  | .nonce => s.nonce.getWord (i / 4)
  | .tag => s.tag.getWord (i / 4)
  | .bin => s.bin.getWord (i / 4)
  | .bout => s.bout.getWord (i / 4)
  | .aadBuf => ⟨aadByte s i, aadByte s (i + 1), aadByte s (i + 2), aadByte s (i + 3)⟩
  | .textBuf => ⟨textByte s i, textByte s (i + 1), textByte s (i + 2), textByte s (i + 3)⟩

/-- Store four bytes in a byte array from index `i` on, `i` a multiple of 4 (20_memory.md R68). -/
def writeArray (r : ArrReg) (i : Nat) (w : ByteWord) (s : State) : State :=
  match r with
  | .key => { s with key := s.key.setWord w (i / 4) }
  | .nonce => { s with nonce := s.nonce.setWord w (i / 4) }
  | .tag => { s with tag := s.tag.setWord w (i / 4) }
  | .bin => { s with bin := s.bin.setWord w (i / 4) }
  | .bout => { s with bout := s.bout.setWord w (i / 4) }
  | .aadBuf => { s with aadBuf := Memory.storeList s.aadBuf i w.toList }
  | .textBuf => { s with textBuf := Memory.storeList s.textBuf i w.toList }

/-- arr[R][i]: byte `i` of a byte array (00_scope.md R11, 20_memory.md R74). -/
def arrayByte (r : ArrReg) (i : Nat) (s : State) : Byte := (readArray r (4 * (i / 4)) s).byte (i % 4)

/-- Accept(v) (30_encoding.md R93). -/
def accept (v : Word) (s : State) : State := { s with pend := v, busy := true, doneBit := false, err := 0 }

/-- The writes that end every command: ERR, BUSY and DONE (60_exceptions.md R236). -/
def complete (code : ResultCode) (s : State) : State := { s with err := code.bits, busy := false, doneBit := true }

/-- Complete a command whose Exec ended with a code in a state: the writes Exec made before a raise stay
(60_exceptions.md R236, R237). -/
def finish (r : ResultCode × State) : Host.Outcome State Fault Refusal := .next (complete r.1 r.2)

/-- The reset event (70_reset_and_hazards.md R270): the whole block takes its reset values, with newly drawn buffers.
The Host agent, the coming turns and the count of draws are not the block's and stay (log 9). -/
def resetEvent (s : State) : State :=
  { State.resetAt (s.epoch + 1) with busyReads := s.busyReads, host := s.host, turns := s.turns }

end Sys2Proof.Machine
end

