-- ==== Sys2Proof/Machine/Operands.lean ====
section
/-! DEFINITION. The operands of the commands, from their fixed registers (30_encoding.md R95, R96). -/

namespace Sys2Proof.Machine

open Sys2Proof

/-- The key length in bytes, 0 to 255 (30_encoding.md R96). -/
def keyLength (s : State) : Nat := s.keylen.toNat

/-- KEY[0..KEYLEN) (41_aes_commands.md R160). -/
def keyOperand (s : State) : List Byte := s.key.toList.take (keyLength s)

/-- The rounds of the cached schedule (10_state.md R32). -/
def rounds (s : State) : Nat := s.nr.toNat

/-- AAD_BUF[0..AADLEN) (43_gcm_commands.md R210, R211). -/
def aadOperand (s : State) : List Byte := (List.range s.aadlen.toNat).map (aadByte s)

/-- TEXT_BUF[0..TEXTLEN) (43_gcm_commands.md R210, R211). -/
def textOperand (s : State) : List Byte := (List.range s.textlen.toNat).map (textByte s)

end Sys2Proof.Machine
end

