-- ==== Sys2Proof/Machine/AesCommands.lean ====
section
/-! DEFINITION. The completion step of the AES commands (41_aes_commands.md). Each body is the spec's Exec: a result
code and the state it leaves; `finish` then writes ERR, BUSY and DONE (60_exceptions.md R236). -/

namespace Sys2Proof.Machine

open Sys2Proof

/-- Exec(EXPAND_KEY) (41_aes_commands.md R160). -/
def expandKeyBody (s : State) : ResultCode × State :=
  if keyLengthLegal (keyLength s) then
    (.ok, { s with
      sched := Aes.keyExpansion (keyOperand s)
      nr := BitVec.ofNat 4 (Aes.nrOf (keyLength s))
      sv := true })
  else (.invalidKeyLength, { s with sv := false, nr := 0 })

/-- Exec(ENCRYPT_BLOCK) (41_aes_commands.md R161). -/
def encryptBlockBody (s : State) : ResultCode × State :=
  if s.sv then (.ok, { s with bout := Aes.cipher s.sched (rounds s) s.bin }) else (.keyNotReady, s)

/-- Exec(DECRYPT_BLOCK) (41_aes_commands.md R162). -/
def decryptBlockBody (s : State) : ResultCode × State :=
  if s.sv then (.ok, { s with bout := Aes.invCipher s.sched (rounds s) s.bin }) else (.keyNotReady, s)

/-- EXPAND_KEY, completed (R160, 60_exceptions.md R236). -/
def execExpandKey (s : State) : Host.Outcome State Fault Refusal := finish (expandKeyBody s)

/-- ENCRYPT_BLOCK, completed (R161, 60_exceptions.md R236). -/
def execEncryptBlock (s : State) : Host.Outcome State Fault Refusal := finish (encryptBlockBody s)

/-- DECRYPT_BLOCK, completed (R162, 60_exceptions.md R236). -/
def execDecryptBlock (s : State) : Host.Outcome State Fault Refusal := finish (decryptBlockBody s)

end Sys2Proof.Machine
end

