-- ==== Sys2Proof/Machine/GcmCore.lean ====
section
/-! DEFINITION. The GCM core functions of 42_gcm_core.md. -/

namespace Sys2Proof.Gcm

open Sys2Proof

/-- The constant Rc of R182, the block e1 00 ... 00 (R181's polynomial in the bit order of R180). -/
def reduction : BitVec 128 := 0xE1#128 <<< 120

/-- One step of V in R182: multiplication by the field's generator. -/
def shiftReduce (v : BitVec 128) : BitVec 128 := if v.getLsbD 0 then (v >>> 1) ^^^ reduction else v >>> 1

/-- The loop of R182 with `n` bits of X left: the next bit is x_i = bit (127 - i), and n = 128 - i. -/
def gf128Loop (x : BitVec 128) : Nat → BitVec 128 → BitVec 128 → BitVec 128
  | 0, z, _ => z
  | n + 1, z, v => gf128Loop x n (if x.getLsbD n then z ^^^ v else z) (shiftReduce v)

/-- gf128_mul(X, Y) (R182). -/
def gf128Mul (x y : BitVec 128) : BitVec 128 := gf128Loop x 128 0 y

/-- X · Y on blocks (R180, R182). -/
def blockMul (x y : Block) : Block := Block.ofBits (gf128Mul x.toBits y.toBits)

/-- GHASH over a list of blocks, in Horner form (R183). -/
def ghashBlocks (h : Block) (y : Block) (xs : List Block) : Block :=
  xs.foldl (fun y x => blockMul (y.xor x) h) y

/-- GHASH(H, X) for X of 16 m bytes (R183). -/
def ghash (h : Block) (x : List Byte) : Block := ghashBlocks h .zero (blocksOf (x.length / 16) x)

/-- inc32: the last four bytes plus 1 modulo 2^32, big-endian (R184). -/
def inc32 (cb : Block) : Block := { cb with c3 := ByteWord.ofWord (cb.c3.toWord + 1) }

/-- `q` blocks of GCTR from counter block `cb` on (R185); a partial block uses the first bytes of its keystream block. -/
def gctrBlocks (w : List ByteWord) (nr : Nat) : Nat → Block → List Byte → List Byte
  | 0, _, _ => []
  | q + 1, cb, x =>
    xorBytes (x.take 16) (Aes.cipher w nr cb).toList ++ gctrBlocks w nr q (inc32 cb) (x.drop 16)

/-- GCTR(ICB, X) with q = ceil(n / 16) blocks (R185). -/
def gctr (w : List ByteWord) (nr : Nat) (icb : Block) (x : List Byte) : List Byte :=
  gctrBlocks w nr ((x.length + 15) / 16) icb x

/-- J0 = N ‖ 00000001 (R186; 90_conflicts.md C1). -/
def preCounter (n : NonceReg) : Block := ⟨n.w0, n.w1, n.w2, ByteWord.ofWord 1⟩

/-- H = Cipher(0^16) (R187). -/
def hashSubkey (w : List ByteWord) (nr : Nat) : Block := Aes.cipher w nr .zero

/-- The zero bytes that pad a sequence of `n` bytes to a multiple of 16 (R188). -/
def zeroPad (n : Nat) : List Byte := List.replicate ((16 - n % 16) % 16) 0

/-- HashInput(A, C) (R188). -/
def hashInput (a c : List Byte) : List Byte :=
  a ++ zeroPad a.length ++ c ++ zeroPad c.length ++ be64 (8 * a.length) ++ be64 (8 * c.length)

/-- The tag of AAD `a` and ciphertext `c`: Cipher(J0) ⊕ GHASH(H, HashInput(A, C)) (R189, R190). -/
def tagOf (w : List ByteWord) (nr : Nat) (n : NonceReg) (a c : List Byte) : Block :=
  (Aes.cipher w nr (preCounter n)).xor (ghash (hashSubkey w nr) (hashInput a c))

/-- GCM_AE(w, Nr, N, A, P) = (C, T) (R189). -/
def gcmAe (w : List ByteWord) (nr : Nat) (n : NonceReg) (a p : List Byte) : List Byte × Block :=
  let c := gctr w nr (inc32 (preCounter n)) p
  (c, tagOf w nr n a c)

/-- GCM_AD(w, Nr, N, A, C, T): the plaintext, or none for FAIL (R190); the tags match when all 16 bytes are equal (R191). -/
def gcmAd (w : List ByteWord) (nr : Nat) (n : NonceReg) (a c : List Byte) (t : Block) : Option (List Byte) :=
  if tagOf w nr n a c = t then some (gctr w nr (inc32 (preCounter n)) c) else none

end Sys2Proof.Gcm
end

