-- ==== Sys2Proof/Machine/GcmCommands.lean ====
section
/-! DEFINITION. The completion step of the GCM commands (43_gcm_commands.md). H, the counter blocks and the computed
tag live only inside these definitions (10_state.md R47, 43_gcm_commands.md R212). -/

namespace Sys2Proof.Machine

open Sys2Proof

/-- Exec(GCM_SEAL) (43_gcm_commands.md R210): the checks in the order of 60_exceptions.md R232. -/
def gcmSealBody (s : State) : ResultCode × State :=
  if s.sv then
    if lengthsLegal s then
      let r := Gcm.gcmAe s.sched (rounds s) s.nonce (aadOperand s) (textOperand s)
      (.ok, { storeText r.1 s with tag := r.2 })
    else (.length, s)
  else (.keyNotReady, s)

/-- Exec(GCM_OPEN) (43_gcm_commands.md R211): the checks in the order of 60_exceptions.md R232. -/
def gcmOpenBody (s : State) : ResultCode × State :=
  if s.sv then
    if lengthsLegal s then
      match Gcm.gcmAd s.sched (rounds s) s.nonce (aadOperand s) (textOperand s) s.tag with
      | some p => (.ok, storeText p s)
      | none => (.authFail, s)
    else (.length, s)
  else (.keyNotReady, s)

/-- GCM_SEAL, completed (R210, 60_exceptions.md R236). -/
def execGcmSeal (s : State) : Host.Outcome State Fault Refusal := finish (gcmSealBody s)

/-- GCM_OPEN, completed (R211, 60_exceptions.md R236). -/
def execGcmOpen (s : State) : Host.Outcome State Fault Refusal := finish (gcmOpenBody s)

end Sys2Proof.Machine
end

