-- ==== Sys2Proof/Machine/Dispatch.lean ====
section
/-! DEFINITION. One arm per command (30_encoding.md R92). -/

namespace Sys2Proof.Machine

open Sys2Proof

-- The completion of a command, whatever its result code (60_exceptions.md R236).
def exec (i : Instr) (s : State) : Host.Outcome State Fault Refusal :=
  match i with
  | .expandKey => Sys2Proof.Machine.execExpandKey s
  | .encryptBlock => Sys2Proof.Machine.execEncryptBlock s
  | .decryptBlock => Sys2Proof.Machine.execDecryptBlock s
  | .gcmSeal => Sys2Proof.Machine.execGcmSeal s
  | .gcmOpen => Sys2Proof.Machine.execGcmOpen s

end Sys2Proof.Machine
end

