-- ==== Sys2Proof/Machine/Engine.lean ====
section
/-! DEFINITION. The Engine's one step, Complete() (60_exceptions.md R236). -/

namespace Sys2Proof.Machine

open Sys2Proof

/-- The completion of an illegal command word: nothing but ERR, BUSY and DONE changes (30_encoding.md R97, 60_exceptions.md R231). -/
def completeIllegal (s : State) : Host.Outcome State Fault Refusal := finish (.illegalCmd, s)

/-- Complete(): decode PEND, execute, write ERR, BUSY and DONE (60_exceptions.md R236). -/
def completeStep (s : State) : Host.Outcome State Fault Refusal :=
  match decode s.pend with
  | .ok i => exec i s
  | .error _ => completeIllegal s

/-- The Engine's turn: the completion step is enabled exactly when BUSY = 1 (60_exceptions.md R236); an idle block
holds its state (R249; log 8). -/
def engineTurn (s : State) : Host.Outcome State Fault Refusal :=
  if s.busy then completeStep s else .next s

/-- Who moves when no turn is listed: a pending command completes, else the Host goes on (log 1). -/
def defaultTurn (s : State) : Turn := if s.busy then .engine else .host

/-- Whose turn the next step is. -/
def nextTurn (s : State) : Turn := s.turns.headD (defaultTurn s)

end Sys2Proof.Machine
end

