-- ==== Sys2Proof/Machine/Bus.lean ====
section
/-! DEFINITION. Bus accesses: where they go (20_memory.md R60 to R66, R73), MemRead (R67) and MemWrite (R68), with the
rules for a pending command (70_reset_and_hazards.md R276, R277). -/

namespace Sys2Proof.Machine

open Sys2Proof

/-- The window offset an address names, if it lies in the window (20_memory.md R60, R61, R73). -/
def windowOffset : Address → Option Nat
  | .offset off => if off < Config.windowSize then some off else none
  | .bus addr =>
    if Config.base ≤ addr ∧ addr < Config.base + Config.windowSize then some (addr - Config.base) else none

/-- The offset of a legal access: in the window (R61), 32 bits wide (R62), aligned (R64); else the fault it gets. -/
def legalOffset (t : Target) : Except Fault Nat :=
  match windowOffset t.addr with
  | none => .error .notDecoded
  | some off => if t.bytes = 4 ∧ off % 4 = 0 then .ok off else .error .busError

/-- The offsets whose reads are free while BUSY = 1: BOUT, TAG and TEXT_BUF (70_reset_and_hazards.md R277). -/
def isOutput (off : Nat) : Bool :=
  ArrReg.bout.holds off || ArrReg.tag.holds off || ArrReg.textBuf.holds off

/-- The contents of the word at an offset, as a read while BUSY = 0 returns it (20_memory.md R67). -/
def readValue (off : Nat) (s : State) : Word :=
  if off = 0x0000 then ctrlWord s
  else if off = 0x0004 then statusWord s
  else if off = 0x0008 then 0
  else if off = 0x000C then s.keylen.zeroExtend 32
  else if off = 0x0010 then s.aadlen
  else if off = 0x0014 then s.textlen
  else
    match arrayAt off with
    | some .key => 0
    | some r => (readArray r (off - r.start) s).toWord
    | none => 0

/-- MemRead(off, 4) (20_memory.md R67). A read changes no register; a read of an output during BUSY takes the next
free value (70_reset_and_hazards.md R277; log 2). -/
def memRead (off : Nat) (s : State) : Word × State :=
  if s.busy && isOutput off then (Config.busyRead s.busyReads, { s with busyReads := s.busyReads + 1 })
  else (readValue off s, s)

/-- MemWrite(off, 4, v) (20_memory.md R68). -/
def memWrite (off : Nat) (v : Word) (s : State) : State :=
  if off = 0x0000 then writeCtrl v s
  else if off = 0x0004 then writeStatus v s
  else if s.busy then { s with ovr := true }
  else if off = 0x0008 then accept v s
  else if off = 0x000C then { s with keylen := v.extractLsb' 0 8 }
  else if off = 0x0010 then { s with aadlen := v }
  else if off = 0x0014 then { s with textlen := v }
  else
    match arrayAt off with
    | some .bout => s
    | some r => writeArray r (off - r.start) (ByteWord.ofWord v) s
    | none => s

/-- What the Host gets back from an access. -/
inductive Response where
  | data (v : Word)
  | written
  | error (f : Fault)
deriving DecidableEq, Repr

/-- One bus access: what the Host gets back, and the state after it. An access that gets an error changes no state and
returns no data (20_memory.md R66). -/
def busAccess (a : Access) (s : State) : Response × State :=
  match legalOffset a.target with
  | .error f => (.error f, s)
  | .ok off =>
    match a.kind with
    | .read => (.data (memRead off s).1, (memRead off s).2)
    | .write v => (.written, memWrite off v s)

end Sys2Proof.Machine
end

