-- ==== Sys2Proof/Machine/HostAgent.lean ====
section
/-! DEFINITION. The Host agent: one statement of its program a turn (30_encoding.md R99), and the pseudo-statements as
the basic statements they expand to (R100). -/

namespace Sys2Proof.Machine

open Sys2Proof

/-- The value of a Host variable, if a read has given it one. -/
def getVar (s : State) (x : Var) : Option Word := s.host.vars.lookup x

/-- The value of a byte-sequence variable, if an RBYTES has given it one (30_encoding.md R100). -/
def getBytes (s : State) (name : Nat) : Option (List Byte) := s.host.byteVars.lookup name

/-- Give a byte-sequence variable a value. -/
def setBytes (name : Nat) (bs : List Byte) (s : State) : State :=
  { s with host := { s.host with byteVars := (name, bs) :: s.host.byteVars.filter (fun p => p.1 ≠ name) } }

/-- Give a Host variable a value. -/
def setVar (x : Var) (v : Word) (s : State) : State :=
  { s with host := { s.host with vars := (x, v) :: s.host.vars.filter (fun p => p.1 ≠ x) } }

/-- Go on to the statement at a position. -/
def goTo (p : Nat) (s : State) : State := { s with host := { s.host with pos := p } }

/-- Go on to the next statement. -/
def advance (s : State) : State := goTo (s.host.pos + 1) s

/-- Record the outcome of an EXPECT: a failure stays recorded, and the Host goes on. DESIGN CHOICE (log 9): R99 says only
that EXPECT is a check. -/
def checkExpect (ok : Bool) (s : State) : State :=
  { s with host := { s.host with failed := s.host.failed || !ok } }

/-- The first `n` bytes of the words t_0 ‖ t_1 ‖ ... of an RBYTES, each split most significant byte first
(30_encoding.md R100); none where one of the words was not read. -/
def partBytes (s : State) (name n : Nat) : Option (List Byte) :=
  ((List.range ((n + 3) / 4)).mapM (fun k => getVar s (.part name k))).map
    (fun ws => (ws.flatMap (fun v => (ByteWord.ofWord v).toList)).take n)

/-- The position of a label in a program: the first one of that name (log 9). -/
def findLabel (prog : List Stmt) (l : Nat) : Option Nat := prog.findIdx? (· == .label l)

/-- A bus access by the Host: an error stops the Host (20_memory.md R66, 92 D44; log 5), read data go to `x` if the
statement names a variable, and the Host goes on. -/
def hostAccess (a : Access) (x : Option Var) (s : State) : Host.Outcome State Fault Refusal :=
  match busAccess a s with
  | (.error f, _) => .fault f
  | (.written, s') => .next (advance s')
  | (.data v, s') =>
    match x with
    | some x => .next (advance (setVar x v s'))
    | none => .next (advance s')

/-- One statement of a host program (30_encoding.md R99). DESIGN CHOICE (log 9), where the spec is silent: an EXPECT on a
variable that nothing has given a value is a failed check, an IF on one is a fault, and so is the end of an RBYTES whose
words were not read; an IF on a bit number above 31 finds it 0. -/
def hostStmt (st : Stmt) (s : State) : Host.Outcome State Fault Refusal :=
  match st with
  | .write t v => hostAccess ⟨.write v, t⟩ none s
  | .read t => hostAccess ⟨.read, t⟩ none s
  | .readTo t x => hostAccess ⟨.read, t⟩ (some x) s
  | .expect x v => .next (advance (checkExpect (getVar s x == some v) s))
  | .bindBytes name n =>
    match partBytes s name n with
    | none => .fault .unsetVariable
    | some bs => .next (advance (setBytes name bs s))
  | .expectBytes name bs => .next (advance (checkExpect (getBytes s name == some bs) s))
  | .label _ => .next (advance s)
  | .ifGoto x b l =>
    match getVar s x with
    | none => .fault .unsetVariable
    | some v =>
      if v.getLsbD b then
        match findLabel s.host.prog l with
        | none => .fault .missingLabel
        | some p => .next (goTo p s)
      else .next (advance s)

/-- The statement the Host takes in its next turn, if its program has one left. -/
def nextStmt (s : State) : Option Stmt := s.host.prog[s.host.pos]?

/-- The Host's turn: its next statement, or nothing once its program has ended. -/
def hostTurn (s : State) : Host.Outcome State Fault Refusal :=
  match nextStmt s with
  | some st => hostStmt st s
  | none => .next s

/-- The target of a word access at a window offset (20_memory.md R62). -/
def wordAtOffset (off : Nat) : Target := ⟨.offset off, 4⟩

/-- `W off, v` (30_encoding.md R99). -/
def hostW (off : Nat) (v : Word) : Stmt := .write (wordAtOffset off) v

/-- `R off -> x` (30_encoding.md R99). -/
def hostR (off : Nat) (x : Var) : Stmt := .readTo (wordAtOffset off) x

/-- `CMD <mnemonic>` (30_encoding.md R100). -/
def hostCmd (i : Instr) : List Stmt := [hostW 0x0008 (encode i)]

/-- `WAIT`, with the label and the variable it uses (30_encoding.md R100). -/
def hostWait (l : Nat) (x : Var) : List Stmt := [.label l, hostR 0x0004 x, .ifGoto x 0 l]

/-- `ACK` (30_encoding.md R100). -/
def hostAck : List Stmt := [hostW 0x0004 0x00000006]

/-- `WBYTES off, s` (30_encoding.md R100). -/
def hostWbytes (off : Nat) (bs : List Byte) : List Stmt :=
  (List.range ((bs.length + 3) / 4)).map (fun k => hostW (off + 4 * k) (ByteWord.ofList (bs.drop (4 * k))).toWord)

/-- `RBYTES off, n -> s`: the reads of its words t_k, then the binding of s (30_encoding.md R100). -/
def hostRbytes (off n s : Nat) : List Stmt :=
  (List.range ((n + 3) / 4)).map (fun k => hostR (off + 4 * k) (.part s k)) ++ [.bindBytes s n]

/-- `STATUS -> x` (30_encoding.md R100). -/
def hostStatus (x : Var) : List Stmt := [hostR 0x0004 x]

end Sys2Proof.Machine
end

