-- ==== Sys2Proof/Machine/Step.lean ====
section
/-! DEFINITION. One step of the machine: one turn of the Host, the Engine or the reset input (00_scope.md R5, 20_memory.md R76). -/

namespace Sys2Proof.Machine

open Sys2Proof

/-- Take one turn. -/
def takeTurn (t : Turn) (s : State) : Host.Outcome State Fault Refusal :=
  match t with
  | .host => hostTurn s
  | .engine => engineTurn s
  | .reset => .next (resetEvent s)

/-- One step: the next listed turn, or the default turn when none is listed. Each step is atomic (20_memory.md R69). -/
def step (s : State) : Host.Outcome State Fault Refusal :=
  match s.turns with
  | [] => takeTurn (defaultTurn s) s
  | t :: ts => takeTurn t { s with turns := ts }

/-- The state in which the command word `w` stands accepted (30_encoding.md R93) and the Engine moves next, so that the
next step decodes and completes exactly it (60_exceptions.md R236; log 12). -/
def State.withFetchWord (s : State) (nbits w : Nat) : State :=
  { accept (BitVec.ofNat 32 (w % 2 ^ nbits)) s with turns := .engine :: s.turns }

end Sys2Proof.Machine
end

