-- ==== Sys2Proof/Machine/HostEncoding.lean ====
section
/-! DEFINITION. The encoding of a host program: the bus transactions it issues, in order (30_encoding.md R99,
95_test_vectors.md section D). -/

namespace Sys2Proof.Machine

open Sys2Proof

/-- The bus transaction the Host issues in the next step, if it issues one. -/
def nextAccess (s : State) : Option Access :=
  match nextTurn s with
  | .host => (nextStmt s).bind Stmt.access
  | .engine => none
  | .reset => none

/-- The encoding of the Host's program as it runs from `s`: the transactions it issues in the next `n` steps, in order. A
jump issues again what it goes back to, as WAIT does, and an access that gets an error is issued too, the last of its
run. -/
def encodeProgram : Nat → State → List Access
  | 0, _ => []
  | n + 1, s =>
    (nextAccess s).toList ++
      match step s with
      | .next t => encodeProgram n t
      | .fault _ => []
      | .refused _ => []

end Sys2Proof.Machine
end

