-- ==== Sys2Proof/WellFormed.lean ====
section
/-! DEFINITION. Well-formedness: of command words (30_encoding.md R91, R97), of bus accesses (20_memory.md R62, R64)
and of host programs (30_encoding.md R99). A command itself has no operand field (R91), so every `Instr` is well formed. -/

namespace Sys2Proof

open Sys2Proof.Machine

/-- No command has a field that could be ill formed (30_encoding.md R91). -/
def Instr.wellFormed : Instr → Bool
  | .expandKey | .encryptBlock | .decryptBlock | .gcmSeal | .gcmOpen => true

/-- A legal command word: bits [31:4] are zero and OP is 1 to 5 (30_encoding.md R97). -/
def commandWordLegal (p : Word) : Bool :=
  p.toNat / 16 == 0 && (1 ≤ p.toNat % 16 && p.toNat % 16 ≤ 5)

/-- An access the Host may make: offset in the window, 32 bits wide, aligned (20_memory.md R62, R64). -/
def targetWellFormed (t : Target) : Bool :=
  match t.addr with
  | .offset off => off < Config.windowSize && t.bytes == 4 && off % 4 == 0
  | .bus _ => false

/-- A statement is well formed in `prog` when its target is and when the label it jumps to stands in `prog`. -/
def stmtWellFormed (prog : List Stmt) : Stmt → Bool
  | .write t _ | .read t | .readTo t _ => targetWellFormed t
  | .expect _ _ | .bindBytes _ _ | .expectBytes _ _ | .label _ => true
  | .ifGoto _ b l => b < 32 && prog.contains (.label l)

/-- Every statement of the program is well formed in it. -/
def programWellFormed (prog : List Stmt) : Bool := prog.all (stmtWellFormed prog)

end Sys2Proof
end

