-- ==== Sys2Proof/Safety.lean ====
section
/-! DEFINITION. The terms claims use: the invariants of 10_state.md R49, what the next step is, the key of the last
successful EXPAND_KEY, frames, and runs of statements. -/

namespace Sys2Proof.Machine

open Sys2Proof

/-- The next step is a Host write of `v` to the legal window offset `off`. -/
def HostWrites (s : State) (off : Nat) (v : Word) : Prop :=
  nextTurn s = .host ∧ ∃ t, nextStmt s = some (.write t v) ∧ legalOffset t = .ok off

/-- The next step is the completion of the pending command `i` (60_exceptions.md R236). -/
def Completes (s : State) (i : Instr) : Prop :=
  nextTurn s = .engine ∧ s.busy = true ∧ decode s.pend = .ok i

/-- The next step is a completion (60_exceptions.md R236). -/
def Completing (s : State) : Prop := nextTurn s = .engine ∧ s.busy = true

/-- SCHED and NR are those of `key` (40_aes_core.md R124, R128). -/
def ScheduleOf (s : State) (key : List Byte) : Prop :=
  keyLengthLegal key.length = true ∧ s.nr = BitVec.ofNat 4 (Aes.nrOf key.length) ∧ s.sched = Aes.keyExpansion key

/-- The key of the last successful EXPAND_KEY after the next step, from the one before it (10_state.md R49 b). -/
def lastKeyAfter (k : Option (List Byte)) (s : State) : Option (List Byte) :=
  match nextTurn s, s.busy, decode s.pend with
  | .engine, true, .ok .expandKey => if keyLengthLegal (keyLength s) then some (keyOperand s) else k
  | _, _, _ => k

/-- What every reachable state satisfies: 10_state.md R49, ERR at most 5 (93_implementation_defined.md item 9), and, as
the model's own representation of the buffers asks (log 3, DESIGN CHOICE), their canonical form within their sizes. -/
structure BlockInv (s : State) : Prop where
  sv_nr : s.sv = false ↔ s.nr = 0
  nr_legal : s.sv = true → s.nr = 10 ∨ s.nr = 12 ∨ s.nr = 14
  sched_key : s.sv = true → ∃ key, ScheduleOf s key
  sched_length : s.sv = true → s.sched.length = 4 * (s.nr.toNat + 1)
  busy_clear : s.busy = true → s.err = 0 ∧ s.doneBit = false
  err_le : s.err.toNat ≤ 5
  aad_wf : Memory.wf s.aadBuf
  aad_size : ∀ c ∈ s.aadBuf, c.1 < Config.aadMax
  text_wf : Memory.wf s.textBuf
  text_size : ∀ c ∈ s.textBuf, c.1 < Config.textMax

/-- Everything outside the block's record is the same (log 1, 2, 3, 9). -/
def SameOutside (s t : State) : Prop :=
  t.epoch = s.epoch ∧ t.busyReads = s.busyReads ∧ t.host = s.host ∧ t.turns = s.turns

/-- The registers no command ever writes are the same: CTRL, OVR, the lengths, KEY, NONCE, BIN, PEND and every byte of
AAD_BUF (30_encoding.md R95). -/
def SameOperands (s t : State) : Prop :=
  t.ie = s.ie ∧ t.ovr = s.ovr ∧ t.keylen = s.keylen ∧ t.aadlen = s.aadlen ∧ t.textlen = s.textlen ∧
  t.key = s.key ∧ t.nonce = s.nonce ∧ t.bin = s.bin ∧ t.pend = s.pend ∧ ∀ i, aadByte t i = aadByte s i

/-- The cached schedule is the same: SV, NR, SCHED (10_state.md R30, R32, R46). -/
def SameSchedule (s t : State) : Prop := t.sv = s.sv ∧ t.nr = s.nr ∧ t.sched = s.sched

/-- The data outputs are the same: BOUT, TAG and every byte of TEXT_BUF (60_exceptions.md R234). -/
def SameOutputs (s t : State) : Prop :=
  t.bout = s.bout ∧ t.tag = s.tag ∧ ∀ i, textByte t i = textByte s i

/-- The STATUS update of a completion with a code (60_exceptions.md R236). -/
def CompletedWith (code : ResultCode) (t : State) : Prop :=
  t.err = code.bits ∧ t.busy = false ∧ t.doneBit = true

/-- The statements of a list, taken one after the other by the Host with no other turn between them. -/
def runStmts : List Stmt → State → Host.Outcome State Fault Refusal
  | [], s => .next s
  | st :: sts, s =>
    match hostStmt st s with
    | .next s' => runStmts sts s'
    | .fault f => .fault f
    | .refused r => .refused r

end Sys2Proof.Machine
end

