-- ==== Sys2Proof/Certificates/Slice0/Obligations.lean ====
section
/-! DEFINITION. The statements for the provers, in the order of OBLIGATIONS.json. -/

open Sys2Proof Sys2Proof.Machine

/-! Encoding. -/

/-- 30_encoding.md R92, R94: over all 2^32 words, each command has exactly the one word of the opcode map, every word
with a nonzero MBZ field or a reserved OP is illegal, and decoding an encoded command gives it back. -/
def Obligations.WordDecodesToItsCommandOnly : Prop :=
  (∀ p : Word,
    (decode p = .ok .expandKey ↔ p = 0x00000001) ∧ (decode p = .ok .encryptBlock ↔ p = 0x00000002) ∧
    (decode p = .ok .decryptBlock ↔ p = 0x00000003) ∧ (decode p = .ok .gcmSeal ↔ p = 0x00000004) ∧
    (decode p = .ok .gcmOpen ↔ p = 0x00000005) ∧
    ((∃ e, decode p = .error e) ↔
      p.extractLsb' 4 28 ≠ 0 ∨ p.extractLsb' 0 4 = 0 ∨ 6 ≤ (p.extractLsb' 0 4).toNat)) ∧
  ∀ i : Instr, i.wellFormed = true → decode (encode i) = .ok i ∧ commandWordLegal (encode i) = true

/-- 30_encoding.md R92: the rows of the opcode map, written out, and words of every reserved kind (R97). -/
def Obligations.OpcodeMapDecodes : Prop :=
  decodeTableWord 32 0x00000001 = some .expandKey ∧ decodeTableWord 32 0x00000002 = some .encryptBlock ∧
  decodeTableWord 32 0x00000003 = some .decryptBlock ∧ decodeTableWord 32 0x00000004 = some .gcmSeal ∧
  decodeTableWord 32 0x00000005 = some .gcmOpen ∧ decodeTableWord 32 0x00000000 = none ∧
  decodeTableWord 32 0x00000006 = none ∧ decodeTableWord 32 0x0000000F = none ∧
  decodeTableWord 32 0x00000011 = none ∧ decodeTableWord 32 0x80000001 = none

/-- 30_encoding.md R97: an illegal word is accepted like any other, and completes with ERR = 1, BUSY = 0, DONE = 1 and
nothing else changed. -/
def Obligations.IllegalWordCompletesWithCodeOne : Prop :=
  ∀ (s : State) (p : Word), p.extractLsb' 4 28 ≠ 0 ∨ p.extractLsb' 0 4 = 0 ∨ 6 ≤ (p.extractLsb' 0 4).toNat →
    (s.busy = false → memWrite 0x0008 p s = { s with pend := p, busy := true, doneBit := false, err := 0 }) ∧
    (s.busy = true → s.pend = p → engineTurn s = .next { s with err := 1, busy := false, doneBit := true })

/-! Acceptance and the step. -/

/-- 30_encoding.md R93: a write of any value to CMD while BUSY = 0 is accepted, and while BUSY = 1 it is not. -/
def Obligations.CommandAcceptance : Prop :=
  ∀ (s : State) (v : Word),
    (s.busy = false → busAccess ⟨.write v, ⟨.offset 0x0008, 4⟩⟩ s =
      (.written, { s with pend := v, busy := true, doneBit := false, err := 0 })) ∧
    (s.busy = true → busAccess ⟨.write v, ⟨.offset 0x0008, 4⟩⟩ s = (.written, { s with ovr := true }))

/-- 60_exceptions.md R236: when a command is pending and the Engine moves, the step is exec of the decoded command, at
the state with that turn taken off the list; with no turn listed the Engine moves by itself (log 1). -/
def Obligations.StepRunsTheDecodedCommand : Prop :=
  ∀ (s : State) (i : Instr), s.busy = true → decode s.pend = .ok i →
    (∀ ts, s.turns = .engine :: ts → step s = exec i { s with turns := ts }) ∧ (s.turns = [] → step s = exec i s)

/-- A command word placed by withFetchWord stands accepted (30_encoding.md R93) and the very next step runs it (log 12). -/
def Obligations.PlacedWordRunsNext : Prop :=
  ∀ (s : State) (i : Instr), step (s.withFetchWord 32 (encode i).toNat) = exec i (accept (encode i) s)

/-- 60_exceptions.md R236: every command, legal or not, ends the pending state whatever its code: the completion step
always answers a next state, with BUSY = 0, DONE = 1 and ERR one of the codes 0 to 5 (R230). -/
def Obligations.EveryCompletionEndsPending : Prop :=
  ∀ s : State, s.busy = true →
    ∃ t, engineTurn s = .next t ∧ t.busy = false ∧ t.doneBit = true ∧ t.err.toNat ≤ 5

/-! Registers and the bus. -/

/-- 10_state.md R26: where a STATUS read finds each field, and all that a STATUS write does, whatever BUSY is. -/
def Obligations.StatusRegister : Prop :=
  ∀ (s : State) (v : Word),
    busAccess ⟨.read, ⟨.offset 0x0004, 4⟩⟩ s = (.data (statusWord s), s) ∧
    (statusWord s).getLsbD 0 = s.busy ∧ (statusWord s).getLsbD 1 = s.doneBit ∧ (statusWord s).getLsbD 2 = s.ovr ∧
    (statusWord s).getLsbD 3 = s.sv ∧ (statusWord s).extractLsb' 4 4 = s.err ∧ (statusWord s).extractLsb' 8 4 = s.nr ∧
    (statusWord s).extractLsb' 12 20 = 0 ∧ statusWord State.reset = 0 ∧
    busAccess ⟨.write v, ⟨.offset 0x0004, 4⟩⟩ s =
      (.written, { s with
        doneBit := if v.getLsbD 1 then false else s.doneBit
        ovr := if v.getLsbD 2 then false else s.ovr })

/-- 10_state.md R25: CTRL holds IE in bit 0 and nothing else, is written whatever BUSY is, and IE enables the IRQ output. -/
def Obligations.ControlRegister : Prop :=
  ∀ (s : State) (v : Word),
    busAccess ⟨.read, ⟨.offset 0x0000, 4⟩⟩ s = (.data (if s.ie then 1 else 0), s) ∧
    busAccess ⟨.write v, ⟨.offset 0x0000, 4⟩⟩ s = (.written, { s with ie := v.getLsbD 0 }) ∧ State.reset.ie = false ∧
    irq { s with ie := true } = s.doneBit ∧ irq { s with ie := false } = false

/-- 10_state.md R34, R35, R36: what the three length registers store and read back while BUSY = 0. -/
def Obligations.LengthRegisters : Prop :=
  ∀ (s : State) (v : Word), s.busy = false →
    memWrite 0x000C v s = { s with keylen := v.extractLsb' 0 8 } ∧
    (memRead 0x000C (memWrite 0x000C v s)).1 = v &&& 0xFF ∧
    memWrite 0x0010 v s = { s with aadlen := v } ∧ (memRead 0x0010 (memWrite 0x0010 v s)).1 = v ∧
    memWrite 0x0014 v s = { s with textlen := v } ∧ (memRead 0x0014 (memWrite 0x0014 v s)).1 = v

/-- 20_memory.md R63, R68: a write to a writable byte array stores the four bytes big-endian at the offset, leaves every
other byte of every array as it was, and changes no other register. -/
def Obligations.ArrayWriteStoresItsFourBytes : Prop :=
  ∀ (s : State) (r : ArrReg) (off : Nat) (v : Word), s.busy = false → r ≠ .bout → r.holds off = true → off % 4 = 0 →
    ∃ t, busAccess ⟨.write v, ⟨.offset off, 4⟩⟩ s = (.written, t) ∧
      arrayByte r (off - r.start) t = v.extractLsb' 24 8 ∧ arrayByte r (off - r.start + 1) t = v.extractLsb' 16 8 ∧
      arrayByte r (off - r.start + 2) t = v.extractLsb' 8 8 ∧ arrayByte r (off - r.start + 3) t = v.extractLsb' 0 8 ∧
      (∀ q i, i < q.size → ¬ (q = r ∧ off - r.start ≤ i ∧ i < off - r.start + 4) → arrayByte q i t = arrayByte q i s) ∧
      t = { s with
        key := t.key, nonce := t.nonce, tag := t.tag, bin := t.bin, aadBuf := t.aadBuf, textBuf := t.textBuf }

/-- 20_memory.md R63, R67: a read of a readable byte array returns its four bytes at the offset, big-endian. -/
def Obligations.ArrayReadReturnsItsFourBytes : Prop :=
  ∀ (s : State) (r : ArrReg) (off : Nat), s.busy = false → r ≠ .key → r.holds off = true → off % 4 = 0 →
    ∃ v, busAccess ⟨.read, ⟨.offset off, 4⟩⟩ s = (.data v, s) ∧
      v.extractLsb' 24 8 = arrayByte r (off - r.start) s ∧ v.extractLsb' 16 8 = arrayByte r (off - r.start + 1) s ∧
      v.extractLsb' 8 8 = arrayByte r (off - r.start + 2) s ∧ v.extractLsb' 0 8 = arrayByte r (off - r.start + 3) s

/-- 10_state.md R33, R37, R41: CMD and KEY read as zero, and a write to BOUT is ignored while BUSY = 0. -/
def Obligations.WriteOnlyAndReadOnlyRegisters : Prop :=
  ∀ (s : State) (off : Nat) (v : Word), off % 4 = 0 →
    (off = 0x0008 ∨ ArrReg.key.holds off = true → busAccess ⟨.read, ⟨.offset off, 4⟩⟩ s = (.data 0, s)) ∧
    (ArrReg.bout.holds off = true → s.busy = false → busAccess ⟨.write v, ⟨.offset off, 4⟩⟩ s = (.written, s))

/-- 10_state.md R44: reserved offsets read as zero and ignore writes while BUSY = 0; the reserved bits of CTRL and
STATUS read 0 and ignore writes. -/
def Obligations.ReservedOffsetsAndBits : Prop :=
  ∀ (s : State) (off : Nat) (v : Word), off % 4 = 0 →
    (0x0018 ≤ off ∧ off ≤ 0x001F ∨ 0x004C ≤ off ∧ off ≤ 0x004F ∨ 0x0080 ≤ off ∧ off ≤ 0x00FF ∨
      0x0200 ≤ off ∧ off ≤ 0x3FFF →
      busAccess ⟨.read, ⟨.offset off, 4⟩⟩ s = (.data 0, s) ∧
      (s.busy = false → busAccess ⟨.write v, ⟨.offset off, 4⟩⟩ s = (.written, s))) ∧
    (memRead 0x0000 s).1 &&& 0xFFFFFFFE = 0 ∧ (memRead 0x0004 s).1 &&& 0xFFFFF000 = 0 ∧
    memWrite 0x0000 v s = memWrite 0x0000 (v &&& 1) s ∧ memWrite 0x0004 v s = memWrite 0x0004 (v &&& 6) s

/-- 20_memory.md R62, R64, R66: an access in the window that is misaligned (R64), or not 32 bits wide (R62), gets BUS_ERROR
whatever BUSY is: no state changes and no data come back. That the Host's step then ends in the fault `busError` is the
model's record of it, DEDUCED (log 5). -/
def Obligations.IllegalAccessGetsBusError : Prop :=
  ∀ (s : State) (k : AccessKind) (x : Option Var) (off n : Nat), off < 0x8000 → n ≠ 4 ∨ off % 4 ≠ 0 →
    busAccess ⟨k, ⟨.offset off, n⟩⟩ s = (.error .busError, s) ∧
    hostAccess ⟨k, ⟨.offset off, n⟩⟩ x s = .fault .busError

/-- 20_memory.md R61, R73: BASE is a multiple of 0x8000, the bus address BASE + off is the offset off, and an address
outside the window is not decoded by the block, which it does not change (the stop is the model's: log 6). -/
def Obligations.WindowStandsAtBase : Prop :=
  Config.base % 0x8000 = 0 ∧
  ∀ (s : State) (k : AccessKind) (n : Nat),
    (∀ off, off < 0x8000 → busAccess ⟨k, ⟨.bus (Config.base + off), n⟩⟩ s = busAccess ⟨k, ⟨.offset off, n⟩⟩ s) ∧
    (∀ a, a < Config.base ∨ Config.base + 0x8000 ≤ a → busAccess ⟨k, ⟨.bus a, n⟩⟩ s = (.error .notDecoded, s))

/-- 10_state.md R22: a Host read changes no register; only the model's own count of free values may move (log 2). -/
def Obligations.ReadsHaveNoSideEffects : Prop :=
  ∀ (s : State) (tg : Target), ∃ n, (busAccess ⟨.read, tg⟩ s).2 = { s with busyReads := n } ∧
    s.busyReads ≤ n ∧ n ≤ s.busyReads + 1 ∧ (s.busy = false → n = s.busyReads)

/-- 92 D33 and 60_exceptions.md R244: no read tells two blocks apart that differ in KEY alone. -/
def Obligations.KeyCannotBeReadBack : Prop :=
  ∀ (s : State) (k : KeyReg) (tg : Target),
    (busAccess ⟨.read, tg⟩ { s with key := k }).1 = (busAccess ⟨.read, tg⟩ s).1

/-! A pending command. -/

/-- 70_reset_and_hazards.md R276: while BUSY = 1 every aligned write other than to CTRL and STATUS is dropped and sets
OVR, those two are performed, and a misaligned write gets the bus error. -/
def Obligations.WritesWhilePending : Prop :=
  ∀ (s : State) (off : Nat) (v : Word), s.busy = true → off < 0x8000 →
    (off % 4 = 0 → off ≠ 0x0000 → off ≠ 0x0004 →
      busAccess ⟨.write v, ⟨.offset off, 4⟩⟩ s = (.written, { s with ovr := true })) ∧
    busAccess ⟨.write v, ⟨.offset 0x0000, 4⟩⟩ s = (.written, { s with ie := v.getLsbD 0 }) ∧
    busAccess ⟨.write v, ⟨.offset 0x0004, 4⟩⟩ s =
      (.written, { s with
        doneBit := if v.getLsbD 1 then false else s.doneBit
        ovr := if v.getLsbD 2 then false else s.ovr }) ∧
    (off % 4 ≠ 0 → busAccess ⟨.write v, ⟨.offset off, 4⟩⟩ s = (.error .busError, s))

/-- 70_reset_and_hazards.md R277: while BUSY = 1 a read of BOUT, TAG or TEXT_BUF returns the next free value, a new one
at each such read, and every other read is exact; in particular STATUS then shows BUSY = 1, DONE = 0, ERR = 0; while
BUSY = 0 every read is exact. -/
def Obligations.ReadsWhilePending : Prop :=
  ∀ (s : State) (off : Nat), off < 0x8000 → off % 4 = 0 →
    (s.busy = true → ArrReg.bout.holds off = true ∨ ArrReg.tag.holds off = true ∨ ArrReg.textBuf.holds off = true →
      busAccess ⟨.read, ⟨.offset off, 4⟩⟩ s =
        (.data (Config.busyRead s.busyReads), { s with busyReads := s.busyReads + 1 })) ∧
    (s.busy = true → ArrReg.bout.holds off = false → ArrReg.tag.holds off = false → ArrReg.textBuf.holds off = false →
      busAccess ⟨.read, ⟨.offset off, 4⟩⟩ s = (.data (readValue off s), s)) ∧
    (s.busy = true → BlockInv s → (readValue 0x0004 s) &&& 0x000000F3 = 0x00000001) ∧
    (s.busy = false → busAccess ⟨.read, ⟨.offset off, 4⟩⟩ s = (.data (readValue off s), s))

/-- 70_reset_and_hazards.md R280: a Host turn taken while a command is pending changes none of its operands, nor the
schedule, the outputs, ERR, PEND and BUSY: only CTRL, DONE, OVR, the Host itself and the count of free values. -/
def Obligations.OperandsStandStillWhilePending : Prop :=
  ∀ s t : State, s.busy = true → hostTurn s = .next t →
    t = { s with ie := t.ie, doneBit := t.doneBit, ovr := t.ovr, busyReads := t.busyReads, host := t.host }

/-- 70_reset_and_hazards.md R280, R283: however many Host turns come between acceptance and completion, the command
leaves the schedule, the outputs and the result code it would have left by completing at once. That the turns stand in a
list, and the list that is left, are the model's choice (log 1). -/
def Obligations.LatencyDoesNotChangeTheResult : Prop :=
  ∀ (s : State) (n : Nat) (ts : List Turn) (v : State), s.busy = true → s.turns = List.replicate n .host ++ .engine :: ts →
    Sys2Proof.core.run (n + 1) s = .next v →
    ∃ t, completeStep s = .next t ∧ v.busy = false ∧ v.doneBit = true ∧ v.err = t.err ∧ v.sv = t.sv ∧ v.nr = t.nr ∧
      v.sched = t.sched ∧ v.bout = t.bout ∧ v.tag = t.tag ∧ v.turns = ts ∧
      (∀ i, textByte v i = textByte t i) ∧ v.key = t.key ∧ v.nonce = t.nonce ∧ v.bin = t.bin ∧
      (∀ i, aadByte v i = aadByte t i)

/-- 60_exceptions.md R236: a pending command completes once the Host turns listed before it are used up, with no Engine
turn listed at all: weak fairness, with any finite delay (log 1). -/
def Obligations.PendingCommandCompletes : Prop :=
  ∀ (s : State) (n : Nat) (v : State), s.busy = true → s.turns = List.replicate n .host →
    Sys2Proof.core.run (n + 1) s = .next v → v.busy = false ∧ v.doneBit = true

/-! The commands. -/

/-- 41_aes_commands.md R160: EXPAND_KEY with a legal KEYLEN caches the expansion of KEY[0..KEYLEN), with NR and SV;
with any other KEYLEN it clears SV and NR and reports code 2. Nothing else changes. -/
def Obligations.ExpandKeyResult : Prop :=
  ∀ s : State,
    (s.keylen = 16 ∨ s.keylen = 24 ∨ s.keylen = 32 →
      exec .expandKey s = .next { s with
        sched := Aes.keyExpansion (s.key.toList.take s.keylen.toNat)
        nr := BitVec.ofNat 4 (s.keylen.toNat / 4 + 6)
        sv := true, err := 0, busy := false, doneBit := true }) ∧
    (s.keylen ≠ 16 → s.keylen ≠ 24 → s.keylen ≠ 32 →
      exec .expandKey s = .next { s with sv := false, nr := 0, err := 2, busy := false, doneBit := true })

/-- 41_aes_commands.md R161: ENCRYPT_BLOCK with a schedule writes Cipher(BIN) to BOUT; without one it reports code 3. -/
def Obligations.EncryptBlockResult : Prop :=
  ∀ s : State,
    (s.sv = true → exec .encryptBlock s = .next { s with
      bout := Aes.cipher s.sched s.nr.toNat s.bin, err := 0, busy := false, doneBit := true }) ∧
    (s.sv = false → exec .encryptBlock s = .next { s with err := 3, busy := false, doneBit := true })

/-- 41_aes_commands.md R162: DECRYPT_BLOCK with a schedule writes InvCipher(BIN) to BOUT; without one it reports code 3. -/
def Obligations.DecryptBlockResult : Prop :=
  ∀ s : State,
    (s.sv = true → exec .decryptBlock s = .next { s with
      bout := Aes.invCipher s.sched s.nr.toNat s.bin, err := 0, busy := false, doneBit := true }) ∧
    (s.sv = false → exec .decryptBlock s = .next { s with err := 3, busy := false, doneBit := true })

/-- 43_gcm_commands.md R210: GCM_SEAL with a schedule and legal lengths writes the ciphertext over TEXT_BUF[0..TEXTLEN)
and the tag to TAG, and nothing else but STATUS; its two errors write STATUS only. -/
def Obligations.GcmSealResult : Prop :=
  ∀ s : State,
    (s.sv = true → s.aadlen.toNat ≤ 256 → s.textlen.toNat ≤ 16384 →
      ∃ t, exec .gcmSeal s = .next t ∧ CompletedWith .ok t ∧
        t.tag = (Gcm.gcmAe s.sched s.nr.toNat s.nonce (aadOperand s) (textOperand s)).2 ∧
        (Gcm.gcmAe s.sched s.nr.toNat s.nonce (aadOperand s) (textOperand s)).1.length = s.textlen.toNat ∧
        (∀ i, textByte t i = if i < s.textlen.toNat
          then (Gcm.gcmAe s.sched s.nr.toNat s.nonce (aadOperand s) (textOperand s)).1.getD i 0 else textByte s i) ∧
        SameOperands s t ∧ SameSchedule s t ∧ t.bout = s.bout ∧ SameOutside s t) ∧
    (s.sv = false → exec .gcmSeal s = .next { s with err := 3, busy := false, doneBit := true }) ∧
    (s.sv = true → 256 < s.aadlen.toNat ∨ 16384 < s.textlen.toNat →
      exec .gcmSeal s = .next { s with err := 4, busy := false, doneBit := true })

/-- 43_gcm_commands.md R211: GCM_OPEN with a schedule, legal lengths and a matching tag writes the plaintext over
TEXT_BUF[0..TEXTLEN) and nothing else but STATUS; with a tag that does not match, and on its other errors, it writes
STATUS only. -/
def Obligations.GcmOpenResult : Prop :=
  ∀ s : State,
    (∀ p, s.sv = true → s.aadlen.toNat ≤ 256 → s.textlen.toNat ≤ 16384 →
      Gcm.gcmAd s.sched s.nr.toNat s.nonce (aadOperand s) (textOperand s) s.tag = some p →
      ∃ t, exec .gcmOpen s = .next t ∧ CompletedWith .ok t ∧ p.length = s.textlen.toNat ∧
        (∀ i, textByte t i = if i < s.textlen.toNat then p.getD i 0 else textByte s i) ∧
        t.tag = s.tag ∧ SameOperands s t ∧ SameSchedule s t ∧ t.bout = s.bout ∧ SameOutside s t) ∧
    (s.sv = true → s.aadlen.toNat ≤ 256 → s.textlen.toNat ≤ 16384 →
      Gcm.gcmAd s.sched s.nr.toNat s.nonce (aadOperand s) (textOperand s) s.tag = none →
      exec .gcmOpen s = .next { s with err := 5, busy := false, doneBit := true }) ∧
    (s.sv = false → exec .gcmOpen s = .next { s with err := 3, busy := false, doneBit := true }) ∧
    (s.sv = true → 256 < s.aadlen.toNat ∨ 16384 < s.textlen.toNat →
      exec .gcmOpen s = .next { s with err := 4, busy := false, doneBit := true })

/-- 41_aes_commands.md R164: ENCRYPT_BLOCK and DECRYPT_BLOCK change nothing but BOUT and STATUS: every other register,
the schedule, and every byte of both buffers stay. -/
def Obligations.BlockCommandsFrame : Prop :=
  ∀ (i : Instr) (s t : State), i = .encryptBlock ∨ i = .decryptBlock → exec i s = .next t →
    SameOperands s t ∧ SameSchedule s t ∧ t.tag = s.tag ∧ (∀ j, textByte t j = textByte s j) ∧ SameOutside s t

/-- 41_aes_commands.md R160 (e): EXPAND_KEY changes nothing but SCHED, SV, NR and STATUS. -/
def Obligations.ExpandKeyFrame : Prop :=
  ∀ s t : State, exec .expandKey s = .next t → SameOperands s t ∧ SameOutputs s t ∧ SameOutside s t

/-- 43_gcm_commands.md R210, R211: the GCM commands change nothing but STATUS, TEXT_BUF[0..TEXTLEN) and, for GCM_SEAL,
TAG: no byte of TEXT_BUF at TEXTLEN or above, no other register. -/
def Obligations.GcmCommandsFrame : Prop :=
  ∀ (i : Instr) (s t : State), i = .gcmSeal ∨ i = .gcmOpen → exec i s = .next t →
    SameOperands s t ∧ SameSchedule s t ∧ t.bout = s.bout ∧ (i = .gcmOpen → t.tag = s.tag) ∧
    (∀ j, s.textlen.toNat ≤ j → textByte t j = textByte s j) ∧ SameOutside s t

/-- 60_exceptions.md R234: a command that ends in an error has no effect on any data output; it changes STATUS only,
with SV and NR for INVALID_KEY_LENGTH. -/
def Obligations.ErrorsWriteNoDataOutput : Prop :=
  ∀ s t : State, s.busy = true → engineTurn s = .next t → t.err ≠ 0 →
    t = { s with sv := t.sv, nr := t.nr, err := t.err, busy := false, doneBit := true } ∧
    (t.err ≠ 2 → t.sv = s.sv ∧ t.nr = s.nr) ∧ SameOutputs s t

/-- 60_exceptions.md R232: exactly one code is reported, the first that applies in the order 1, 2, 3, 4, 5. -/
def Obligations.ResultCodePriority : Prop :=
  ∀ s t : State, s.busy = true → engineTurn s = .next t →
    t.err =
      (match decode s.pend with
       | .error _ => 1
       | .ok .expandKey => if s.keylen = 16 ∨ s.keylen = 24 ∨ s.keylen = 32 then 0 else 2
       | .ok .encryptBlock => if s.sv = false then 3 else 0
       | .ok .decryptBlock => if s.sv = false then 3 else 0
       | .ok .gcmSeal =>
         if s.sv = false then 3 else if 256 < s.aadlen.toNat ∨ 16384 < s.textlen.toNat then 4 else 0
       | .ok .gcmOpen =>
         if s.sv = false then 3 else if 256 < s.aadlen.toNat ∨ 16384 < s.textlen.toNat then 4
         else if Gcm.tagOf s.sched s.nr.toNat s.nonce (aadOperand s) (textOperand s) = s.tag then 0 else 5)

/-- 70_reset_and_hazards.md R281: KEY and KEYLEN have no effect on the cipher and GCM commands. -/
def Obligations.KeyRegistersDoNotReachCipherCommands : Prop :=
  ∀ (i : Instr) (s t : State) (k : KeyReg) (n : BitVec 8), i ≠ .expandKey → exec i s = .next t →
    exec i { s with key := k, keylen := n } = .next { t with key := k, keylen := n }

/-! The AES core. -/

/-- 40_aes_core.md R113, R114, R115: the S-box table is the affine map of the inverse, for all 256 bytes, the inverse
is one, and the inverse table undoes the table. -/
def Obligations.SboxTablesAreAsDefined : Prop :=
  ∀ x : Byte, Aes.sbox x = Aes.affine (Aes.inv x) ∧ Aes.invSbox (Aes.sbox x) = x ∧ Aes.sbox (Aes.invSbox x) = x ∧
    (x ≠ 0 → Aes.gmul x (Aes.inv x) = 1) ∧ Aes.inv 0 = 0

/-- 40_aes_core.md R128: the schedule of a legal key, word by word: its length, the words copied from the key, and the
recurrence for every later word. -/
def Obligations.KeyExpansionRecurrence : Prop :=
  ∀ key : List Byte, key.length = 16 ∨ key.length = 24 ∨ key.length = 32 →
    let w := Aes.keyExpansion key
    let nk := key.length / 4
    w.length = 4 * (nk + 6 + 1) ∧
    (∀ i, i < nk → (Aes.wordAt w i).toList = (key.drop (4 * i)).take 4) ∧
    (∀ i, nk ≤ i → i < w.length → Aes.wordAt w i = (Aes.wordAt w (i - nk)).xor
      (if i % nk = 0 then (Aes.subWord (Aes.rotWord (Aes.wordAt w (i - 1)))).xor (Aes.rcon (i / nk))
       else if nk = 8 ∧ i % nk = 4 then Aes.subWord (Aes.wordAt w (i - 1))
       else Aes.wordAt w (i - 1)))

/-- 40_aes_core.md R132: for every legal key and every block, InvCipher undoes Cipher under the key's schedule. -/
def Obligations.InvCipherUndoesCipher : Prop :=
  ∀ (key : List Byte) (x : Block), key.length = 16 ∨ key.length = 24 ∨ key.length = 32 →
    Aes.invCipher (Aes.keyExpansion key) (key.length / 4 + 6)
      (Aes.cipher (Aes.keyExpansion key) (key.length / 4 + 6) x) = x

/-- 41_aes_commands.md R162 (b): ENCRYPT_BLOCK, then DECRYPT_BLOCK with BIN set to that BOUT, returns the first block. -/
def Obligations.DecryptBlockUndoesEncryptBlock : Prop :=
  ∀ s : State, s.sv = true →
    ∃ t u, exec .encryptBlock s = .next t ∧ exec .decryptBlock { t with bin := t.bout } = .next u ∧
      u.bout = s.bin ∧ CompletedWith .ok t ∧ CompletedWith .ok u

/-! The GCM core. -/

/-- 42_gcm_core.md R184, R192: inc32 adds 1 modulo 2^32 to the last four bytes, big-endian, and leaves the first
twelve; the j-th counter block from J0 on has the nonce and the counter j + 1, for every j up to 1024, the most a text
of 16384 bytes uses, so no counter wraps. -/
def Obligations.CountersDoNotWrap : Prop :=
  (∀ cb : Block, (Gcm.inc32 cb).c3.toWord = cb.c3.toWord + 1 ∧
    (Gcm.inc32 cb).c0 = cb.c0 ∧ (Gcm.inc32 cb).c1 = cb.c1 ∧ (Gcm.inc32 cb).c2 = cb.c2) ∧
  (∀ (n : NonceReg) (j : Nat), j ≤ 1024 →
    Gcm.inc32^[j] (Gcm.preCounter n) = ⟨n.w0, n.w1, n.w2, ByteWord.ofWord (BitVec.ofNat 32 (j + 1))⟩ ∧
    (BitVec.ofNat 32 (j + 1)).toNat = j + 1) ∧
  (∀ s : State, lengthsLegal s = true → ((textOperand s).length + 15) / 16 ≤ 1024)

/-- 42_gcm_core.md R181, R182: the block 80 00 ... 00 is the identity of the field's product, zero annihilates, and the
product distributes over exclusive-or on both sides. -/
def Obligations.FieldProductIsBilinear : Prop :=
  (∀ x : BitVec 128, Gcm.gf128Mul x (1#128 <<< 127) = x) ∧ (∀ y : BitVec 128, Gcm.gf128Mul (1#128 <<< 127) y = y) ∧
  (∀ x : BitVec 128, Gcm.gf128Mul x 0 = 0) ∧ (∀ y : BitVec 128, Gcm.gf128Mul 0 y = 0) ∧
  (∀ a b y : BitVec 128, Gcm.gf128Mul (a ^^^ b) y = Gcm.gf128Mul a y ^^^ Gcm.gf128Mul b y) ∧
  (∀ x a b : BitVec 128, Gcm.gf128Mul x (a ^^^ b) = Gcm.gf128Mul x a ^^^ Gcm.gf128Mul x b)

/-- 42_gcm_core.md R185: counter mode keeps the length and, applied twice from the same counter block, gives the
sequence back. -/
def Obligations.CounterModeUndoesItself : Prop :=
  ∀ (w : List ByteWord) (nr : Nat) (icb : Block) (x : List Byte),
    (Gcm.gctr w nr icb x).length = x.length ∧ Gcm.gctr w nr icb (Gcm.gctr w nr icb x) = x

/-- 42_gcm_core.md R193: for every schedule, nonce, AAD and plaintext, opening what was sealed gives the plaintext. -/
def Obligations.OpenUndoesSeal : Prop :=
  ∀ (w : List ByteWord) (nr : Nat) (n : NonceReg) (a p : List Byte),
    Gcm.gcmAd w nr n a (Gcm.gcmAe w nr n a p).1 (Gcm.gcmAe w nr n a p).2 = some p

/-- 42_gcm_core.md R194 (c) and R188: under the zero subkey GHASH is zero for every input; and the hash of empty AAD and
text is zero under every subkey. -/
def Obligations.ZeroHashes : Prop :=
  (∀ a c : List Byte, Gcm.ghash .zero (Gcm.hashInput a c) = .zero) ∧
  (∀ h : Block, Gcm.ghash h (Gcm.hashInput [] []) = .zero)

/-- 42_gcm_core.md R193 and 70_reset_and_hazards.md R282, on the machine: after a GCM_SEAL that ends with code 0,
GCM_OPEN ends with code 0 and every byte of TEXT_BUF is what it was before the GCM_SEAL; with any other TAG it ends with
code 5 and TEXT_BUF keeps the ciphertext. -/
def Obligations.GcmOpenUndoesGcmSeal : Prop :=
  ∀ s : State, s.sv = true → s.aadlen.toNat ≤ 256 → s.textlen.toNat ≤ 16384 →
    ∃ t u, exec .gcmSeal s = .next t ∧ CompletedWith .ok t ∧
      exec .gcmOpen t = .next u ∧ CompletedWith .ok u ∧ (∀ i, textByte u i = textByte s i) ∧ u.tag = t.tag ∧
      ∀ g, g ≠ t.tag → ∃ v, exec .gcmOpen { t with tag := g } = .next v ∧ CompletedWith .authFail v ∧
        v.tag = g ∧ ∀ i, textByte v i = textByte t i

/-! The whole machine. -/

/-- 10_state.md R27: which steps change BUSY, and how. -/
def Obligations.BusyChangesOnlyByAcceptanceCompletionReset : Prop :=
  ∀ s t : State, step s = .next t →
    (s.busy = false → t.busy = true → ∃ v, HostWrites s 0x0008 v) ∧
    (s.busy = true → t.busy = false → Completing s ∨ nextTurn s = .reset) ∧
    (s.busy = false → ∀ v, HostWrites s 0x0008 v → t.busy = true) ∧
    (Completing s → t.busy = false) ∧ (nextTurn s = .reset → t.busy = false)

/-- 10_state.md R28: which steps set and clear DONE. -/
def Obligations.DoneChangesOnlyByCompletionAcceptanceAck : Prop :=
  ∀ s t : State, step s = .next t →
    (s.doneBit = false → t.doneBit = true → Completing s) ∧ (Completing s → t.doneBit = true) ∧
    (s.doneBit = true → t.doneBit = false →
      (∃ v, HostWrites s 0x0008 v ∧ s.busy = false) ∨ (∃ v, HostWrites s 0x0004 v ∧ v.getLsbD 1 = true) ∨
      nextTurn s = .reset) ∧
    (∀ v, HostWrites s 0x0008 v → s.busy = false → t.doneBit = false) ∧
    (∀ v, HostWrites s 0x0004 v → v.getLsbD 1 = true → t.doneBit = false)

/-- 10_state.md R29: which steps set and clear OVR; a completion leaves it. -/
def Obligations.OvrIsSticky : Prop :=
  ∀ s t : State, step s = .next t →
    (s.ovr = false → t.ovr = true →
      s.busy = true ∧ ∃ off v, HostWrites s off v ∧ off ≠ 0x0000 ∧ off ≠ 0x0004) ∧
    (s.busy = true → ∀ off v, HostWrites s off v → off ≠ 0x0000 → off ≠ 0x0004 → t.ovr = true) ∧
    (s.ovr = true → t.ovr = false → (∃ v, HostWrites s 0x0004 v ∧ v.getLsbD 2 = true) ∨ nextTurn s = .reset) ∧
    (∀ v, HostWrites s 0x0004 v → v.getLsbD 2 = true → t.ovr = false) ∧ (nextTurn s = .reset → t.ovr = false) ∧
    (Completing s → t.ovr = s.ovr)

/-- 10_state.md R30, R46: SV, NR and SCHED change only at an EXPAND_KEY or a reset; a successful EXPAND_KEY sets SV and
derives SCHED, a failed one and a reset clear SV. -/
def Obligations.ScheduleChangesOnlyByExpandKey : Prop :=
  ∀ s t : State, step s = .next t →
    (¬ SameSchedule s t → Completes s .expandKey ∨ nextTurn s = .reset) ∧
    (Completes s .expandKey → t.sv = keyLengthLegal s.keylen.toNat ∧
      (t.sv = true → t.sched = Aes.keyExpansion (s.key.toList.take s.keylen.toNat))) ∧
    (nextTurn s = .reset → t.sv = false)

/-- 20_memory.md R78: after a completion the outputs stay until the next acceptance, a reset, or the Host's own writes of
TAG and TEXT_BUF. -/
def Obligations.OutputsStayWhileIdle : Prop :=
  ∀ s t : State, s.busy = false → nextTurn s ≠ .reset → step s = .next t →
    t.bout = s.bout ∧ SameSchedule s t ∧
    ((∀ off v, HostWrites s off v → ArrReg.tag.holds off = false) → t.tag = s.tag) ∧
    ((∀ off v, HostWrites s off v → ArrReg.textBuf.holds off = false) → ∀ i, textByte t i = textByte s i) ∧
    ((∀ v, ¬ HostWrites s 0x0008 v) → t.err = s.err)

/-- 70_reset_and_hazards.md R271: a buffer byte that has not been written stays the byte drawn at the reset event: no
step but a reset draws it again, and a step that leaves it unwritten leaves its value. -/
def Obligations.DrawnBytesStay : Prop :=
  ∀ (s t : State) (i : Nat), nextTurn s ≠ .reset → step s = .next t →
    (Memory.lookup t.aadBuf i = none →
      Memory.lookup s.aadBuf i = none ∧ aadByte t i = aadByte s i ∧ aadByte t i = Config.drawnAad s.epoch i) ∧
    (Memory.lookup t.textBuf i = none →
      Memory.lookup s.textBuf i = none ∧ textByte t i = textByte s i ∧ textByte t i = Config.drawnText s.epoch i)

/-- 10_state.md R48 and 60_exceptions.md R240: IRQ is CTRL.IE and DONE; it rises exactly at a completion with IE = 1 and
at a write of IE <- 1 while DONE = 1, and falls exactly when DONE is cleared (by the Host, an acceptance or a reset) or
IE is written 0; until then it stays. -/
def Obligations.InterruptLevel : Prop :=
  ∀ s : State,
    irq s = (s.ie && s.doneBit) ∧
    ∀ t, step s = .next t →
      (irq s = false → irq t = true →
        Completing s ∧ s.ie = true ∨ ∃ v, HostWrites s 0x0000 v ∧ v.getLsbD 0 = true ∧ s.doneBit = true) ∧
      (irq s = true → irq t = false →
        (∃ v, HostWrites s 0x0004 v ∧ v.getLsbD 1 = true) ∨ (∃ v, HostWrites s 0x0000 v ∧ v.getLsbD 0 = false) ∨
        (∃ v, HostWrites s 0x0008 v ∧ s.busy = false) ∨ nextTurn s = .reset) ∧
      (Completing s → irq t = s.ie) ∧
      (∀ v, HostWrites s 0x0000 v → irq t = (v.getLsbD 0 && s.doneBit)) ∧
      (∀ v, HostWrites s 0x0004 v → v.getLsbD 1 = true → irq t = false) ∧
      (∀ v, HostWrites s 0x0008 v → s.busy = false → irq t = false) ∧ (nextTurn s = .reset → irq t = false)

/-- 70_reset_and_hazards.md R270 and 10_state.md R50: the reset event gives every component its reset value whatever the
state, draws the buffers anew, and discards a pending command, which writes nothing. -/
def Obligations.ResetEvent : Prop :=
  ∀ (s : State) (ts : List Turn), s.turns = .reset :: ts →
    ∃ t, step s = .next t ∧ t.ie = false ∧ t.busy = false ∧ t.doneBit = false ∧ t.ovr = false ∧ t.sv = false ∧
      t.err = 0 ∧ t.nr = 0 ∧ t.keylen = 0 ∧ t.aadlen = 0 ∧ t.textlen = 0 ∧
      (∀ r i, r ≠ .aadBuf → r ≠ .textBuf → i < r.size → arrayByte r i t = 0) ∧
      (∀ i, aadByte t i = Config.drawnAad (s.epoch + 1) i) ∧ (∀ i, textByte t i = Config.drawnText (s.epoch + 1) i) ∧
      irq t = false ∧ t.turns = ts ∧ t.host = s.host

/-- 10_state.md R50: the state right after power-on. -/
def Obligations.PowerOnState : Prop :=
  State.reset.ie = false ∧ State.reset.busy = false ∧ State.reset.doneBit = false ∧ State.reset.ovr = false ∧
  State.reset.sv = false ∧ State.reset.err = 0 ∧ State.reset.nr = 0 ∧ State.reset.keylen = 0 ∧
  State.reset.aadlen = 0 ∧ State.reset.textlen = 0 ∧
  (∀ r i, r ≠ .aadBuf → r ≠ .textBuf → i < r.size → arrayByte r i State.reset = 0) ∧
  (∀ i, aadByte State.reset i = Config.drawnAad 0 i) ∧ (∀ i, textByte State.reset i = Config.drawnText 0 i) ∧
  irq State.reset = false

/-- The invariants hold at power-on: 10_state.md R49, R50, and ERR at most 5 (93_implementation_defined.md item 9). The
clauses on the buffers' canonical form and size are about the model's own representation of them, a DESIGN CHOICE
(log 3). -/
def Obligations.InvariantHoldsAtReset : Prop := BlockInv State.reset

/-- Every step keeps the invariants: 10_state.md R49, and ERR at most 5 (93_implementation_defined.md item 9). The clauses
on the buffers' canonical form and size are about the model's own representation of them, a DESIGN CHOICE (log 3). -/
def Obligations.EveryStepKeepsTheInvariant : Prop :=
  ∀ s t : State, BlockInv s → step s = .next t → BlockInv t

/-- 10_state.md R49 (b) with its history: while SV = 1, SCHED and NR are those of the key of the last successful
EXPAND_KEY, and every step keeps that. -/
def Obligations.ScheduleIsOfTheLastExpandedKey : Prop :=
  ∀ (k : Option (List Byte)) (s t : State), (s.sv = true → ∃ key, k = some key ∧ ScheduleOf s key) → step s = .next t →
    (t.sv = true → ∃ key, lastKeyAfter k s = some key ∧ ScheduleOf t key)

/-! The Host. -/

/-- 30_encoding.md R99, R100: what each statement of a host program does at a legal offset (the write, the read into a
variable, the check of a word or of a byte sequence, the label and the conditional jump), and RBYTES, which binds s to the
first n bytes of its words, exactly n of them, and changes nothing of the block. Three clauses are the model's choice
(log 9): a failed check is recorded and the Host goes on, a check of a variable that nothing has given a value fails, and a
jump goes to the first label of its name. -/
def Obligations.HostStatementsDoWhatTheySay : Prop :=
  (∀ (s : State) (off : Nat) (v : Word) (x : Var) (b l name : Nat) (bs : List Byte), off < 0x8000 → off % 4 = 0 →
    hostStmt (.write ⟨.offset off, 4⟩ v) s = .next (advance (memWrite off v s)) ∧
    hostStmt (.read ⟨.offset off, 4⟩) s = .next (advance (memRead off s).2) ∧
    (∃ t, hostStmt (.readTo ⟨.offset off, 4⟩ x) s = .next t ∧ getVar t x = some (memRead off s).1 ∧
      (∀ y, y ≠ x → getVar t y = getVar s y) ∧ t.host.pos = s.host.pos + 1) ∧
    (∃ t, hostStmt (.expect x v) s = .next t ∧ t.host.pos = s.host.pos + 1 ∧
      (t.host.failed = true ↔ s.host.failed = true ∨ getVar s x ≠ some v)) ∧
    (∃ t, hostStmt (.expectBytes name bs) s = .next t ∧ t.host.pos = s.host.pos + 1 ∧
      (t.host.failed = true ↔ s.host.failed = true ∨ getBytes s name ≠ some bs)) ∧
    hostStmt (.label l) s = .next (advance s) ∧
    (∀ w, getVar s x = some w → w.getLsbD b = false → hostStmt (.ifGoto x b l) s = .next (advance s)) ∧
    (∀ w p, getVar s x = some w → w.getLsbD b = true → s.host.prog[p]? = some (.label l) →
      (∀ q, q < p → s.host.prog[q]? ≠ some (.label l)) → hostStmt (.ifGoto x b l) s = .next (goTo p s))) ∧
  ∀ (s : State) (r : ArrReg) (n name : Nat), s.busy = false → r ≠ .key → n ≤ r.size →
    ∃ t, runStmts (hostRbytes r.start n name) s = .next t ∧
      getBytes t name = some ((List.range n).map (fun i => arrayByte r i s)) ∧
      (∀ m, m ≠ name → getBytes t m = getBytes s m) ∧ t = { s with host := t.host }

/-- 30_encoding.md R99: the block sees nothing of a host program but its bus transactions: a Host step changes the block as
the transaction it issues does, and not at all if it issues none. The encoding of a program without jumps is the list of
its statements' transactions in order, and a WAIT whose command stays pending issues its read of STATUS again in each
round (each statement is a turn of the Host, and the turns stand in a list: log 1). -/
def Obligations.StatementsWithoutAccessLeaveTheBlock : Prop :=
  (∀ (st : Stmt) (s t : State), st.access = none → hostStmt st s = .next t → t = { s with host := t.host }) ∧
  (∀ s t : State, nextTurn s = .host → step s = .next t →
    t = { (match nextAccess s with
        | some a => (busAccess a { s with turns := s.turns.tail }).2
        | none => { s with turns := s.turns.tail }) with host := t.host }) ∧
  (∀ (s v : State) (n : Nat), s.turns = List.replicate n .host → s.host.pos = 0 → s.host.prog.length = n →
    (∀ st ∈ s.host.prog, ∀ x b l, st ≠ .ifGoto x b l) → Sys2Proof.core.run n s = .next v →
    encodeProgram n s = s.host.prog.filterMap Stmt.access) ∧
  ∀ (s : State) (p l : Nat) (x : Var) (k : Nat), s.busy = true → s.host.pos = p →
    s.host.prog[p]? = some (.label l) → s.host.prog[p + 1]? = some (hostR 0x0004 x) →
    s.host.prog[p + 2]? = some (.ifGoto x 0 l) → (∀ q, q < p → s.host.prog[q]? ≠ some (.label l)) →
    s.turns = List.replicate (3 * k) .host →
    encodeProgram (3 * k) s = List.replicate k ⟨.read, wordAtOffset 0x0004⟩

/-- 20_memory.md R82: the statements of WBYTES (30_encoding.md R100) put a byte sequence into a writable byte array from
byte 0 on, with zero bytes up to the last whole word, and leave every later byte and every other array. -/
def Obligations.WbytesStoresTheSequence : Prop :=
  ∀ (s : State) (r : ArrReg) (bs : List Byte), s.busy = false → r ≠ .bout → bs.length ≤ r.size →
    ∃ t, runStmts (hostWbytes r.start bs) s = .next t ∧
      (∀ i, i < r.size → arrayByte r i t =
        if i < bs.length then bs.getD i 0 else if i < 4 * ((bs.length + 3) / 4) then 0 else arrayByte r i s) ∧
      (∀ q i, q ≠ r → i < q.size → arrayByte q i t = arrayByte q i s) ∧ t.busy = false

/-- 20_memory.md R62, R64: a Host whose program is well formed never meets BUS_ERROR, an address outside the window, or
a missing label, whatever the other agents do. -/
def Obligations.WellFormedProgramsMeetNoBusError : Prop :=
  ∀ s : State, programWellFormed s.host.prog = true →
    step s ≠ .fault .busError ∧ step s ≠ .fault .notDecoded ∧ step s ≠ .fault .missingLabel
end

