-- ==== Sys2Proof/Laws/Bytes.lean ====
section
/-! SUPPORT. The byte, word and block conversions and exclusive-or. -/

namespace Sys2Proof

@[simp] theorem ByteWord.toWord_ofWord (v : Word) : (ByteWord.ofWord v).toWord = v := by
  simp only [ByteWord.ofWord, ByteWord.toWord]
  ext i hi
  simp only [BitVec.getElem_append, BitVec.getElem_extractLsb']
  split <;> [skip; (split <;> [skip; split])] <;> (rw [← BitVec.getLsbD_eq_getElem]; congr 1; omega)

/-- The bits of a word are those of its bytes, byte 0 the most significant (20_memory.md R63). -/
theorem ByteWord.toWord_getLsbD (w : ByteWord) (i : Nat) :
    w.toWord.getLsbD i =
      if i < 8 then w.b3.getLsbD i else if i < 16 then w.b2.getLsbD (i - 8)
      else if i < 24 then w.b1.getLsbD (i - 16) else w.b0.getLsbD (i - 24) := by
  have h : w.toWord.getLsbD i = (w.b0 ++ w.b1 ++ w.b2 ++ w.b3).getLsbD i := rfl
  rw [h, BitVec.getLsbD_append, BitVec.getLsbD_append, BitVec.getLsbD_append]
  split_ifs <;> first | rfl | omega

@[simp] theorem ByteWord.ofWord_toWord (w : ByteWord) : ByteWord.ofWord w.toWord = w := by
  obtain ⟨a, b, c, d⟩ := w
  simp only [ByteWord.ofWord, ByteWord.mk.injEq]
  refine ⟨?_, ?_, ?_, ?_⟩ <;>
  · apply BitVec.eq_of_getLsbD_eq
    intro i hi
    rw [BitVec.getLsbD_extractLsb', ByteWord.toWord_getLsbD]
    simp only [hi, decide_true, Bool.true_and]
    split_ifs <;> first | omega | (congr 1; omega)

/-- The bits of a block's value are those of its words, word 0 the most significant (42_gcm_core.md R180). -/
theorem Block.toBits_getLsbD (b : Block) (i : Nat) :
    b.toBits.getLsbD i =
      if i < 32 then b.c3.toWord.getLsbD i else if i < 64 then b.c2.toWord.getLsbD (i - 32)
      else if i < 96 then b.c1.toWord.getLsbD (i - 64) else b.c0.toWord.getLsbD (i - 96) := by
  have h : b.toBits.getLsbD i = (b.c0.toWord ++ b.c1.toWord ++ b.c2.toWord ++ b.c3.toWord).getLsbD i := rfl
  rw [h, BitVec.getLsbD_append, BitVec.getLsbD_append, BitVec.getLsbD_append]
  split_ifs <;> first | rfl | omega

@[simp] theorem Block.toBits_ofBits (x : BitVec 128) : (Block.ofBits x).toBits = x := by
  apply BitVec.eq_of_getLsbD_eq
  intro i hi
  rw [Block.toBits_getLsbD]
  simp only [Block.ofBits, ByteWord.toWord_ofWord, BitVec.getLsbD_extractLsb']
  split_ifs
  · simp only [*, decide_true, Bool.true_and]; congr 1; omega
  · simp only [show i - 32 < 32 by omega, decide_true, Bool.true_and]; congr 1; omega
  · simp only [show i - 64 < 32 by omega, decide_true, Bool.true_and]; congr 1; omega
  · simp only [show i - 96 < 32 by omega, decide_true, Bool.true_and]; congr 1; omega

@[simp] theorem Block.ofBits_toBits (b : Block) : Block.ofBits b.toBits = b := by
  obtain ⟨c0, c1, c2, c3⟩ := b
  simp only [Block.ofBits, Block.mk.injEq]
  refine ⟨?_, ?_, ?_, ?_⟩ <;>
  · refine (congrArg ByteWord.ofWord ?_).trans (ByteWord.ofWord_toWord _)
    apply BitVec.eq_of_getLsbD_eq
    intro i hi
    rw [BitVec.getLsbD_extractLsb', Block.toBits_getLsbD]
    simp only [hi, decide_true, Bool.true_and]
    split_ifs <;> first | omega | (congr 1; omega)

theorem ByteWord.toWord_injective (a b : ByteWord) (h : a.toWord = b.toWord) : a = b := by
  rw [← ByteWord.ofWord_toWord a, h, ByteWord.ofWord_toWord]

theorem Block.toBits_injective (a b : Block) (h : a.toBits = b.toBits) : a = b := by
  rw [← Block.ofBits_toBits a, h, Block.ofBits_toBits]

@[simp] theorem ByteWord.xor_self (a : ByteWord) : a.xor a = .zero := by
  simp [ByteWord.xor, ByteWord.zero]

@[simp] theorem ByteWord.xor_zero (a : ByteWord) : a.xor .zero = a := by
  simp [ByteWord.xor, ByteWord.zero]

theorem ByteWord.xor_comm (a b : ByteWord) : a.xor b = b.xor a := by
  simp [ByteWord.xor, BitVec.xor_comm]

theorem ByteWord.xor_assoc (a b c : ByteWord) : (a.xor b).xor c = a.xor (b.xor c) := by
  simp [ByteWord.xor, BitVec.xor_assoc]

@[simp] theorem ByteWord.xor_xor_cancel (a b : ByteWord) : (a.xor b).xor b = a := by
  rw [ByteWord.xor_assoc, ByteWord.xor_self, ByteWord.xor_zero]

@[simp] theorem Block.xor_self (a : Block) : a.xor a = .zero := by
  simp [Block.xor, Block.zero]

@[simp] theorem Block.xor_zero (a : Block) : a.xor .zero = a := by
  simp [Block.xor, Block.zero]

theorem Block.xor_comm (a b : Block) : a.xor b = b.xor a := by
  simp [Block.xor, ByteWord.xor_comm]

theorem Block.xor_assoc (a b c : Block) : (a.xor b).xor c = a.xor (b.xor c) := by
  simp [Block.xor, ByteWord.xor_assoc]

@[simp] theorem Block.xor_xor_cancel (a b : Block) : (a.xor b).xor b = a := by
  rw [Block.xor_assoc, Block.xor_self, Block.xor_zero]

@[simp] theorem ByteWord.toList_length (w : ByteWord) : w.toList.length = 4 := rfl

@[simp] theorem Block.toList_length (b : Block) : b.toList.length = 16 := rfl

@[simp] theorem KeyReg.toList_length (k : KeyReg) : k.toList.length = 32 := rfl

@[simp] theorem NonceReg.toList_length (n : NonceReg) : n.toList.length = 12 := rfl

@[simp] theorem be64_length (n : Nat) : (be64 n).length = 8 := rfl

@[simp] theorem ByteWord.ofList_toList (w : ByteWord) : ByteWord.ofList w.toList = w := rfl

@[simp] theorem Block.ofList_toList (b : Block) : Block.ofList b.toList = b := rfl

@[simp] theorem wordsOf_length (n : Nat) (bs : List Byte) : (wordsOf n bs).length = n := by
  induction n generalizing bs with
  | zero => rfl
  | succ n ih => simp [wordsOf, ih]

@[simp] theorem blocksOf_length (n : Nat) (bs : List Byte) : (blocksOf n bs).length = n := by
  induction n generalizing bs with
  | zero => rfl
  | succ n ih => simp [blocksOf, ih]

@[simp] theorem xorBytes_length (xs ks : List Byte) : (xorBytes xs ks).length = min xs.length ks.length := by
  simp [xorBytes]

/-- Exclusive-or with the same long enough sequence twice gives the first sequence back. -/
theorem xorBytes_cancel (xs ks : List Byte) (h : xs.length ≤ ks.length) : xorBytes (xorBytes xs ks) ks = xs := by
  induction xs generalizing ks with
  | nil => simp [xorBytes]
  | cons x xs ih =>
    cases ks with
    | nil => simp at h
    | cons k ks =>
      have := ih ks (by simpa using h)
      simp only [xorBytes, List.zipWith_cons_cons] at this ⊢
      rw [this, BitVec.xor_assoc, BitVec.xor_self, BitVec.xor_zero]

end Sys2Proof
end

