-- ==== Sys2Proof/Laws/Aes.lean ====
section
/-! SUPPORT. Small facts about the AES core functions: the length of a schedule, what the loop of key expansion keeps,
and the linear maps of the round. -/

namespace Sys2Proof.Aes

open Sys2Proof

@[simp] theorem expandLoop_length (nk n : Nat) (w : List ByteWord) : (expandLoop nk n w).length = w.length + n := by
  induction n generalizing w with
  | zero => rfl
  | succ n ih => simp only [expandLoop, ih, List.length_append, List.length_singleton]; omega

/-- The words a schedule already has stay as they are. -/
theorem expandLoop_wordAt_old (nk n : Nat) (w : List ByteWord) (i : Nat) (h : i < w.length) :
    wordAt (expandLoop nk n w) i = wordAt w i := by
  induction n generalizing w with
  | zero => rfl
  | succ n ih =>
    rw [expandLoop, ih _ (by simp only [List.length_append, List.length_singleton]; omega)]
    simp [wordAt, List.getElem?_append_left h]

/-- The schedule of a key has 4 (Nr + 1) words (R124). -/
theorem keyExpansion_length (key : List Byte) :
    (keyExpansion key).length = 4 * (nrOf key.length + 1) := by
  simp only [keyExpansion, expandLoop_length, wordsOf_length, nkOf, nrOf]
  omega

theorem xtime_xor (a b : Byte) : xtime (a ^^^ b) = xtime a ^^^ xtime b := by
  simp only [xtime, BitVec.getLsbD_xor]
  have twice (x : Byte) : 0x1B#8 ^^^ (0x1B#8 ^^^ x) = x := by
    rw [← BitVec.xor_assoc, BitVec.xor_self, BitVec.zero_xor]
  rcases a.getLsbD 7 <;> rcases b.getLsbD 7 <;> simp [BitVec.shiftLeft_xor_distrib] <;>
    first | ac_rfl | (refine (twice _).symm.trans ?_; ac_rfl)

@[simp] theorem addRoundKey_twice (w : List ByteWord) (r : Nat) (s : Block) :
    addRoundKey w r (addRoundKey w r s) = s := by
  simp [addRoundKey]

@[simp] theorem invShiftRows_shiftRows (s : Block) : invShiftRows (shiftRows s) = s := rfl

@[simp] theorem shiftRows_invShiftRows (s : Block) : shiftRows (invShiftRows s) = s := rfl

end Sys2Proof.Aes
end

