-- ==== Sys2Proof/Laws/Memory.lean ====
section
/-! SUPPORT. The buffers: a read after a write, and that every write keeps the canonical form and the size. -/

namespace Sys2Proof.Machine

open Sys2Proof

/-- What every read finds after a write of one byte. -/
theorem lookup_store (m : Memory) (a i : Nat) (b : Byte) :
    Memory.lookup (Memory.store m a b) i = if i = a then some b else Memory.lookup m i := by
  induction m with
  | nil => simp [Memory.store, Memory.lookup]
  | cons c m ih =>
    obtain ⟨k, v⟩ := c
    simp only [Memory.store]
    split_ifs with h1 h2 h3 h3 <;> simp only [Memory.lookup, ih] <;> split_ifs <;>
      first | rfl | omega

/-- The indices after a write: the old ones and the one written. -/
theorem mem_store (m : Memory) (a : Nat) (b : Byte) (c : Host.Cell) (h : c ∈ Memory.store m a b) :
    c.1 = a ∨ c ∈ m := by
  induction m with
  | nil => simp_all [Memory.store]
  | cons d m ih =>
    obtain ⟨k, v⟩ := d
    simp only [Memory.store] at h
    split_ifs at h with h1 h2
    · simp only [List.mem_cons] at h ⊢; rcases h with rfl | h | h <;> simp_all
    · simp only [List.mem_cons] at h ⊢; rcases h with rfl | h <;> simp_all
    · simp only [List.mem_cons] at h ⊢
      rcases h with rfl | h
      · simp
      · rcases ih h with h | h <;> simp [h]

/-- A write of one byte keeps the canonical form. -/
theorem store_wf (m : Memory) (a : Nat) (b : Byte) (h : Memory.wf m) : Memory.wf (Memory.store m a b) := by
  induction m with
  | nil => simp [Memory.store]
  | cons d m ih =>
    obtain ⟨k, v⟩ := d
    have hm := List.pairwise_cons.mp h
    simp only [Memory.store]
    split_ifs with h1 h2
    · refine List.pairwise_cons.mpr ⟨?_, h⟩
      intro c hc
      rcases List.mem_cons.mp hc with rfl | hc
      · exact h1
      · exact lt_trans h1 (hm.1 c hc)
    · subst h2
      exact List.pairwise_cons.mpr ⟨fun c hc => hm.1 c hc, hm.2⟩
    · refine List.pairwise_cons.mpr ⟨?_, ih hm.2⟩
      intro c hc
      rcases mem_store m a b c hc with hc | hc
      · simp only [hc]; omega
      · exact hm.1 c hc

/-- What every read finds after a write of a byte sequence. -/
theorem lookup_storeList (bs : List Byte) (m : Memory) (a i : Nat) :
    Memory.lookup (Memory.storeList m a bs) i =
      if a ≤ i ∧ i < a + bs.length then bs[i - a]? else Memory.lookup m i := by
  induction bs generalizing m a with
  | nil => simp [Memory.storeList, show ¬ (a ≤ i ∧ i < a) by omega]
  | cons b bs ih =>
    rw [Memory.storeList, ih, lookup_store]
    simp only [List.length_cons]
    by_cases h1 : a + 1 ≤ i ∧ i < a + 1 + bs.length
    · rw [if_pos h1, if_pos (by omega), show i - a = (i - (a + 1)) + 1 by omega, List.getElem?_cons_succ]
    · rw [if_neg h1]
      by_cases h2 : i = a
      · subst h2; simp
      · rw [if_neg h2, if_neg (by omega)]

/-- A write of a byte sequence keeps the canonical form. -/
theorem storeList_wf (bs : List Byte) (m : Memory) (a : Nat) (h : Memory.wf m) : Memory.wf (Memory.storeList m a bs) := by
  induction bs generalizing m a with
  | nil => exact h
  | cons b bs ih => exact ih _ _ (store_wf m a b h)

/-- The indices after a write of a byte sequence: the old ones and those written. -/
theorem mem_storeList (bs : List Byte) (m : Memory) (a : Nat) (c : Host.Cell) (h : c ∈ Memory.storeList m a bs) :
    (a ≤ c.1 ∧ c.1 < a + bs.length) ∨ c ∈ m := by
  induction bs generalizing m a with
  | nil => exact .inr h
  | cons b bs ih =>
    rcases ih _ _ h with h | h
    · left; simp only [List.length_cons]; omega
    · rcases mem_store m a b c h with h | h
      · left; simp only [List.length_cons]; omega
      · exact .inr h

/-- A write within a size keeps every index within it. -/
theorem storeList_size (bs : List Byte) (m : Memory) (a n : Nat) (hm : ∀ c ∈ m, c.1 < n) (h : a + bs.length ≤ n) :
    ∀ c ∈ Memory.storeList m a bs, c.1 < n := by
  intro c hc
  rcases mem_storeList bs m a c hc with hc | hc
  · omega
  · exact hm c hc

end Sys2Proof.Machine
end

