-- ==== Sys2Proof/Laws/State.lean ====
section
/-! SUPPORT. What each named update of the state does to each field: one lemma per field per update. -/

namespace Sys2Proof.Machine

open Sys2Proof

/-! The fields after completing a command (60_exceptions.md R236). -/

@[simp] theorem complete_ie (c : ResultCode) (s : State) : (complete c s).ie = s.ie := rfl
@[simp] theorem complete_busy (c : ResultCode) (s : State) : (complete c s).busy = false := rfl
@[simp] theorem complete_doneBit (c : ResultCode) (s : State) : (complete c s).doneBit = true := rfl
@[simp] theorem complete_ovr (c : ResultCode) (s : State) : (complete c s).ovr = s.ovr := rfl
@[simp] theorem complete_sv (c : ResultCode) (s : State) : (complete c s).sv = s.sv := rfl
@[simp] theorem complete_err (c : ResultCode) (s : State) : (complete c s).err = c.bits := rfl
@[simp] theorem complete_nr (c : ResultCode) (s : State) : (complete c s).nr = s.nr := rfl
@[simp] theorem complete_keylen (c : ResultCode) (s : State) : (complete c s).keylen = s.keylen := rfl
@[simp] theorem complete_aadlen (c : ResultCode) (s : State) : (complete c s).aadlen = s.aadlen := rfl
@[simp] theorem complete_textlen (c : ResultCode) (s : State) : (complete c s).textlen = s.textlen := rfl
@[simp] theorem complete_key (c : ResultCode) (s : State) : (complete c s).key = s.key := rfl
@[simp] theorem complete_nonce (c : ResultCode) (s : State) : (complete c s).nonce = s.nonce := rfl
@[simp] theorem complete_tag (c : ResultCode) (s : State) : (complete c s).tag = s.tag := rfl
@[simp] theorem complete_bin (c : ResultCode) (s : State) : (complete c s).bin = s.bin := rfl
@[simp] theorem complete_bout (c : ResultCode) (s : State) : (complete c s).bout = s.bout := rfl
@[simp] theorem complete_aadBuf (c : ResultCode) (s : State) : (complete c s).aadBuf = s.aadBuf := rfl
@[simp] theorem complete_textBuf (c : ResultCode) (s : State) : (complete c s).textBuf = s.textBuf := rfl
@[simp] theorem complete_pend (c : ResultCode) (s : State) : (complete c s).pend = s.pend := rfl
@[simp] theorem complete_sched (c : ResultCode) (s : State) : (complete c s).sched = s.sched := rfl
@[simp] theorem complete_epoch (c : ResultCode) (s : State) : (complete c s).epoch = s.epoch := rfl
@[simp] theorem complete_busyReads (c : ResultCode) (s : State) : (complete c s).busyReads = s.busyReads := rfl
@[simp] theorem complete_host (c : ResultCode) (s : State) : (complete c s).host = s.host := rfl
@[simp] theorem complete_turns (c : ResultCode) (s : State) : (complete c s).turns = s.turns := rfl

/-! The fields after accepting a command (30_encoding.md R93). -/

@[simp] theorem accept_ie (v : Word) (s : State) : (accept v s).ie = s.ie := rfl
@[simp] theorem accept_busy (v : Word) (s : State) : (accept v s).busy = true := rfl
@[simp] theorem accept_doneBit (v : Word) (s : State) : (accept v s).doneBit = false := rfl
@[simp] theorem accept_ovr (v : Word) (s : State) : (accept v s).ovr = s.ovr := rfl
@[simp] theorem accept_sv (v : Word) (s : State) : (accept v s).sv = s.sv := rfl
@[simp] theorem accept_err (v : Word) (s : State) : (accept v s).err = 0 := rfl
@[simp] theorem accept_nr (v : Word) (s : State) : (accept v s).nr = s.nr := rfl
@[simp] theorem accept_keylen (v : Word) (s : State) : (accept v s).keylen = s.keylen := rfl
@[simp] theorem accept_aadlen (v : Word) (s : State) : (accept v s).aadlen = s.aadlen := rfl
@[simp] theorem accept_textlen (v : Word) (s : State) : (accept v s).textlen = s.textlen := rfl
@[simp] theorem accept_key (v : Word) (s : State) : (accept v s).key = s.key := rfl
@[simp] theorem accept_nonce (v : Word) (s : State) : (accept v s).nonce = s.nonce := rfl
@[simp] theorem accept_tag (v : Word) (s : State) : (accept v s).tag = s.tag := rfl
@[simp] theorem accept_bin (v : Word) (s : State) : (accept v s).bin = s.bin := rfl
@[simp] theorem accept_bout (v : Word) (s : State) : (accept v s).bout = s.bout := rfl
@[simp] theorem accept_aadBuf (v : Word) (s : State) : (accept v s).aadBuf = s.aadBuf := rfl
@[simp] theorem accept_textBuf (v : Word) (s : State) : (accept v s).textBuf = s.textBuf := rfl
@[simp] theorem accept_pend (v : Word) (s : State) : (accept v s).pend = v := rfl
@[simp] theorem accept_sched (v : Word) (s : State) : (accept v s).sched = s.sched := rfl
@[simp] theorem accept_epoch (v : Word) (s : State) : (accept v s).epoch = s.epoch := rfl
@[simp] theorem accept_busyReads (v : Word) (s : State) : (accept v s).busyReads = s.busyReads := rfl
@[simp] theorem accept_host (v : Word) (s : State) : (accept v s).host = s.host := rfl
@[simp] theorem accept_turns (v : Word) (s : State) : (accept v s).turns = s.turns := rfl

/-! The fields after a write of CTRL (10_state.md R25). -/

@[simp] theorem writeCtrl_ie (v : Word) (s : State) : (writeCtrl v s).ie = v.getLsbD 0 := rfl
@[simp] theorem writeCtrl_busy (v : Word) (s : State) : (writeCtrl v s).busy = s.busy := rfl
@[simp] theorem writeCtrl_doneBit (v : Word) (s : State) : (writeCtrl v s).doneBit = s.doneBit := rfl
@[simp] theorem writeCtrl_ovr (v : Word) (s : State) : (writeCtrl v s).ovr = s.ovr := rfl
@[simp] theorem writeCtrl_sv (v : Word) (s : State) : (writeCtrl v s).sv = s.sv := rfl
@[simp] theorem writeCtrl_err (v : Word) (s : State) : (writeCtrl v s).err = s.err := rfl
@[simp] theorem writeCtrl_nr (v : Word) (s : State) : (writeCtrl v s).nr = s.nr := rfl
@[simp] theorem writeCtrl_keylen (v : Word) (s : State) : (writeCtrl v s).keylen = s.keylen := rfl
@[simp] theorem writeCtrl_aadlen (v : Word) (s : State) : (writeCtrl v s).aadlen = s.aadlen := rfl
@[simp] theorem writeCtrl_textlen (v : Word) (s : State) : (writeCtrl v s).textlen = s.textlen := rfl
@[simp] theorem writeCtrl_key (v : Word) (s : State) : (writeCtrl v s).key = s.key := rfl
@[simp] theorem writeCtrl_nonce (v : Word) (s : State) : (writeCtrl v s).nonce = s.nonce := rfl
@[simp] theorem writeCtrl_tag (v : Word) (s : State) : (writeCtrl v s).tag = s.tag := rfl
@[simp] theorem writeCtrl_bin (v : Word) (s : State) : (writeCtrl v s).bin = s.bin := rfl
@[simp] theorem writeCtrl_bout (v : Word) (s : State) : (writeCtrl v s).bout = s.bout := rfl
@[simp] theorem writeCtrl_aadBuf (v : Word) (s : State) : (writeCtrl v s).aadBuf = s.aadBuf := rfl
@[simp] theorem writeCtrl_textBuf (v : Word) (s : State) : (writeCtrl v s).textBuf = s.textBuf := rfl
@[simp] theorem writeCtrl_pend (v : Word) (s : State) : (writeCtrl v s).pend = s.pend := rfl
@[simp] theorem writeCtrl_sched (v : Word) (s : State) : (writeCtrl v s).sched = s.sched := rfl
@[simp] theorem writeCtrl_epoch (v : Word) (s : State) : (writeCtrl v s).epoch = s.epoch := rfl
@[simp] theorem writeCtrl_busyReads (v : Word) (s : State) : (writeCtrl v s).busyReads = s.busyReads := rfl
@[simp] theorem writeCtrl_host (v : Word) (s : State) : (writeCtrl v s).host = s.host := rfl
@[simp] theorem writeCtrl_turns (v : Word) (s : State) : (writeCtrl v s).turns = s.turns := rfl

/-! The fields after a write of STATUS (10_state.md R26). -/

@[simp] theorem writeStatus_ie (v : Word) (s : State) : (writeStatus v s).ie = s.ie := rfl
@[simp] theorem writeStatus_busy (v : Word) (s : State) : (writeStatus v s).busy = s.busy := rfl
@[simp] theorem writeStatus_doneBit (v : Word) (s : State) : (writeStatus v s).doneBit = (s.doneBit && !v.getLsbD 1) := rfl
@[simp] theorem writeStatus_ovr (v : Word) (s : State) : (writeStatus v s).ovr = (s.ovr && !v.getLsbD 2) := rfl
@[simp] theorem writeStatus_sv (v : Word) (s : State) : (writeStatus v s).sv = s.sv := rfl
@[simp] theorem writeStatus_err (v : Word) (s : State) : (writeStatus v s).err = s.err := rfl
@[simp] theorem writeStatus_nr (v : Word) (s : State) : (writeStatus v s).nr = s.nr := rfl
@[simp] theorem writeStatus_keylen (v : Word) (s : State) : (writeStatus v s).keylen = s.keylen := rfl
@[simp] theorem writeStatus_aadlen (v : Word) (s : State) : (writeStatus v s).aadlen = s.aadlen := rfl
@[simp] theorem writeStatus_textlen (v : Word) (s : State) : (writeStatus v s).textlen = s.textlen := rfl
@[simp] theorem writeStatus_key (v : Word) (s : State) : (writeStatus v s).key = s.key := rfl
@[simp] theorem writeStatus_nonce (v : Word) (s : State) : (writeStatus v s).nonce = s.nonce := rfl
@[simp] theorem writeStatus_tag (v : Word) (s : State) : (writeStatus v s).tag = s.tag := rfl
@[simp] theorem writeStatus_bin (v : Word) (s : State) : (writeStatus v s).bin = s.bin := rfl
@[simp] theorem writeStatus_bout (v : Word) (s : State) : (writeStatus v s).bout = s.bout := rfl
@[simp] theorem writeStatus_aadBuf (v : Word) (s : State) : (writeStatus v s).aadBuf = s.aadBuf := rfl
@[simp] theorem writeStatus_textBuf (v : Word) (s : State) : (writeStatus v s).textBuf = s.textBuf := rfl
@[simp] theorem writeStatus_pend (v : Word) (s : State) : (writeStatus v s).pend = s.pend := rfl
@[simp] theorem writeStatus_sched (v : Word) (s : State) : (writeStatus v s).sched = s.sched := rfl
@[simp] theorem writeStatus_epoch (v : Word) (s : State) : (writeStatus v s).epoch = s.epoch := rfl
@[simp] theorem writeStatus_busyReads (v : Word) (s : State) : (writeStatus v s).busyReads = s.busyReads := rfl
@[simp] theorem writeStatus_host (v : Word) (s : State) : (writeStatus v s).host = s.host := rfl
@[simp] theorem writeStatus_turns (v : Word) (s : State) : (writeStatus v s).turns = s.turns := rfl

/-! The fields after a store to TEXT_BUF (43_gcm_commands.md R210). -/

@[simp] theorem storeText_ie (bs : List Byte) (s : State) : (storeText bs s).ie = s.ie := rfl
@[simp] theorem storeText_busy (bs : List Byte) (s : State) : (storeText bs s).busy = s.busy := rfl
@[simp] theorem storeText_doneBit (bs : List Byte) (s : State) : (storeText bs s).doneBit = s.doneBit := rfl
@[simp] theorem storeText_ovr (bs : List Byte) (s : State) : (storeText bs s).ovr = s.ovr := rfl
@[simp] theorem storeText_sv (bs : List Byte) (s : State) : (storeText bs s).sv = s.sv := rfl
@[simp] theorem storeText_err (bs : List Byte) (s : State) : (storeText bs s).err = s.err := rfl
@[simp] theorem storeText_nr (bs : List Byte) (s : State) : (storeText bs s).nr = s.nr := rfl
@[simp] theorem storeText_keylen (bs : List Byte) (s : State) : (storeText bs s).keylen = s.keylen := rfl
@[simp] theorem storeText_aadlen (bs : List Byte) (s : State) : (storeText bs s).aadlen = s.aadlen := rfl
@[simp] theorem storeText_textlen (bs : List Byte) (s : State) : (storeText bs s).textlen = s.textlen := rfl
@[simp] theorem storeText_key (bs : List Byte) (s : State) : (storeText bs s).key = s.key := rfl
@[simp] theorem storeText_nonce (bs : List Byte) (s : State) : (storeText bs s).nonce = s.nonce := rfl
@[simp] theorem storeText_tag (bs : List Byte) (s : State) : (storeText bs s).tag = s.tag := rfl
@[simp] theorem storeText_bin (bs : List Byte) (s : State) : (storeText bs s).bin = s.bin := rfl
@[simp] theorem storeText_bout (bs : List Byte) (s : State) : (storeText bs s).bout = s.bout := rfl
@[simp] theorem storeText_aadBuf (bs : List Byte) (s : State) : (storeText bs s).aadBuf = s.aadBuf := rfl
@[simp] theorem storeText_textBuf (bs : List Byte) (s : State) : (storeText bs s).textBuf = Memory.storeList s.textBuf 0 bs := rfl
@[simp] theorem storeText_pend (bs : List Byte) (s : State) : (storeText bs s).pend = s.pend := rfl
@[simp] theorem storeText_sched (bs : List Byte) (s : State) : (storeText bs s).sched = s.sched := rfl
@[simp] theorem storeText_epoch (bs : List Byte) (s : State) : (storeText bs s).epoch = s.epoch := rfl
@[simp] theorem storeText_busyReads (bs : List Byte) (s : State) : (storeText bs s).busyReads = s.busyReads := rfl
@[simp] theorem storeText_host (bs : List Byte) (s : State) : (storeText bs s).host = s.host := rfl
@[simp] theorem storeText_turns (bs : List Byte) (s : State) : (storeText bs s).turns = s.turns := rfl

/-! The fields after giving a Host variable a value. -/

@[simp] theorem setVar_ie (x : Var) (v : Word) (s : State) : (setVar x v s).ie = s.ie := rfl
@[simp] theorem setVar_busy (x : Var) (v : Word) (s : State) : (setVar x v s).busy = s.busy := rfl
@[simp] theorem setVar_doneBit (x : Var) (v : Word) (s : State) : (setVar x v s).doneBit = s.doneBit := rfl
@[simp] theorem setVar_ovr (x : Var) (v : Word) (s : State) : (setVar x v s).ovr = s.ovr := rfl
@[simp] theorem setVar_sv (x : Var) (v : Word) (s : State) : (setVar x v s).sv = s.sv := rfl
@[simp] theorem setVar_err (x : Var) (v : Word) (s : State) : (setVar x v s).err = s.err := rfl
@[simp] theorem setVar_nr (x : Var) (v : Word) (s : State) : (setVar x v s).nr = s.nr := rfl
@[simp] theorem setVar_keylen (x : Var) (v : Word) (s : State) : (setVar x v s).keylen = s.keylen := rfl
@[simp] theorem setVar_aadlen (x : Var) (v : Word) (s : State) : (setVar x v s).aadlen = s.aadlen := rfl
@[simp] theorem setVar_textlen (x : Var) (v : Word) (s : State) : (setVar x v s).textlen = s.textlen := rfl
@[simp] theorem setVar_key (x : Var) (v : Word) (s : State) : (setVar x v s).key = s.key := rfl
@[simp] theorem setVar_nonce (x : Var) (v : Word) (s : State) : (setVar x v s).nonce = s.nonce := rfl
@[simp] theorem setVar_tag (x : Var) (v : Word) (s : State) : (setVar x v s).tag = s.tag := rfl
@[simp] theorem setVar_bin (x : Var) (v : Word) (s : State) : (setVar x v s).bin = s.bin := rfl
@[simp] theorem setVar_bout (x : Var) (v : Word) (s : State) : (setVar x v s).bout = s.bout := rfl
@[simp] theorem setVar_aadBuf (x : Var) (v : Word) (s : State) : (setVar x v s).aadBuf = s.aadBuf := rfl
@[simp] theorem setVar_textBuf (x : Var) (v : Word) (s : State) : (setVar x v s).textBuf = s.textBuf := rfl
@[simp] theorem setVar_pend (x : Var) (v : Word) (s : State) : (setVar x v s).pend = s.pend := rfl
@[simp] theorem setVar_sched (x : Var) (v : Word) (s : State) : (setVar x v s).sched = s.sched := rfl
@[simp] theorem setVar_epoch (x : Var) (v : Word) (s : State) : (setVar x v s).epoch = s.epoch := rfl
@[simp] theorem setVar_busyReads (x : Var) (v : Word) (s : State) : (setVar x v s).busyReads = s.busyReads := rfl
@[simp] theorem setVar_host (x : Var) (v : Word) (s : State) : (setVar x v s).host = { s.host with vars := (x, v) :: s.host.vars.filter (fun p => p.1 ≠ x) } := rfl
@[simp] theorem setVar_turns (x : Var) (v : Word) (s : State) : (setVar x v s).turns = s.turns := rfl

/-! The fields after a byte-sequence variable gets a value. -/

@[simp] theorem setBytes_ie (x : Nat) (bs : List Byte) (s : State) : (setBytes x bs s).ie = s.ie := rfl
@[simp] theorem setBytes_busy (x : Nat) (bs : List Byte) (s : State) : (setBytes x bs s).busy = s.busy := rfl
@[simp] theorem setBytes_doneBit (x : Nat) (bs : List Byte) (s : State) : (setBytes x bs s).doneBit = s.doneBit := rfl
@[simp] theorem setBytes_ovr (x : Nat) (bs : List Byte) (s : State) : (setBytes x bs s).ovr = s.ovr := rfl
@[simp] theorem setBytes_sv (x : Nat) (bs : List Byte) (s : State) : (setBytes x bs s).sv = s.sv := rfl
@[simp] theorem setBytes_err (x : Nat) (bs : List Byte) (s : State) : (setBytes x bs s).err = s.err := rfl
@[simp] theorem setBytes_nr (x : Nat) (bs : List Byte) (s : State) : (setBytes x bs s).nr = s.nr := rfl
@[simp] theorem setBytes_keylen (x : Nat) (bs : List Byte) (s : State) : (setBytes x bs s).keylen = s.keylen := rfl
@[simp] theorem setBytes_aadlen (x : Nat) (bs : List Byte) (s : State) : (setBytes x bs s).aadlen = s.aadlen := rfl
@[simp] theorem setBytes_textlen (x : Nat) (bs : List Byte) (s : State) : (setBytes x bs s).textlen = s.textlen := rfl
@[simp] theorem setBytes_key (x : Nat) (bs : List Byte) (s : State) : (setBytes x bs s).key = s.key := rfl
@[simp] theorem setBytes_nonce (x : Nat) (bs : List Byte) (s : State) : (setBytes x bs s).nonce = s.nonce := rfl
@[simp] theorem setBytes_tag (x : Nat) (bs : List Byte) (s : State) : (setBytes x bs s).tag = s.tag := rfl
@[simp] theorem setBytes_bin (x : Nat) (bs : List Byte) (s : State) : (setBytes x bs s).bin = s.bin := rfl
@[simp] theorem setBytes_bout (x : Nat) (bs : List Byte) (s : State) : (setBytes x bs s).bout = s.bout := rfl
@[simp] theorem setBytes_aadBuf (x : Nat) (bs : List Byte) (s : State) : (setBytes x bs s).aadBuf = s.aadBuf := rfl
@[simp] theorem setBytes_textBuf (x : Nat) (bs : List Byte) (s : State) : (setBytes x bs s).textBuf = s.textBuf := rfl
@[simp] theorem setBytes_pend (x : Nat) (bs : List Byte) (s : State) : (setBytes x bs s).pend = s.pend := rfl
@[simp] theorem setBytes_sched (x : Nat) (bs : List Byte) (s : State) : (setBytes x bs s).sched = s.sched := rfl
@[simp] theorem setBytes_epoch (x : Nat) (bs : List Byte) (s : State) : (setBytes x bs s).epoch = s.epoch := rfl
@[simp] theorem setBytes_busyReads (x : Nat) (bs : List Byte) (s : State) : (setBytes x bs s).busyReads = s.busyReads := rfl
@[simp] theorem setBytes_host (x : Nat) (bs : List Byte) (s : State) : (setBytes x bs s).host = { s.host with byteVars := (x, bs) :: s.host.byteVars.filter (fun p => p.1 ≠ x) } := rfl
@[simp] theorem setBytes_turns (x : Nat) (bs : List Byte) (s : State) : (setBytes x bs s).turns = s.turns := rfl

/-! The fields after a Host jump. -/

@[simp] theorem goTo_ie (p : Nat) (s : State) : (goTo p s).ie = s.ie := rfl
@[simp] theorem goTo_busy (p : Nat) (s : State) : (goTo p s).busy = s.busy := rfl
@[simp] theorem goTo_doneBit (p : Nat) (s : State) : (goTo p s).doneBit = s.doneBit := rfl
@[simp] theorem goTo_ovr (p : Nat) (s : State) : (goTo p s).ovr = s.ovr := rfl
@[simp] theorem goTo_sv (p : Nat) (s : State) : (goTo p s).sv = s.sv := rfl
@[simp] theorem goTo_err (p : Nat) (s : State) : (goTo p s).err = s.err := rfl
@[simp] theorem goTo_nr (p : Nat) (s : State) : (goTo p s).nr = s.nr := rfl
@[simp] theorem goTo_keylen (p : Nat) (s : State) : (goTo p s).keylen = s.keylen := rfl
@[simp] theorem goTo_aadlen (p : Nat) (s : State) : (goTo p s).aadlen = s.aadlen := rfl
@[simp] theorem goTo_textlen (p : Nat) (s : State) : (goTo p s).textlen = s.textlen := rfl
@[simp] theorem goTo_key (p : Nat) (s : State) : (goTo p s).key = s.key := rfl
@[simp] theorem goTo_nonce (p : Nat) (s : State) : (goTo p s).nonce = s.nonce := rfl
@[simp] theorem goTo_tag (p : Nat) (s : State) : (goTo p s).tag = s.tag := rfl
@[simp] theorem goTo_bin (p : Nat) (s : State) : (goTo p s).bin = s.bin := rfl
@[simp] theorem goTo_bout (p : Nat) (s : State) : (goTo p s).bout = s.bout := rfl
@[simp] theorem goTo_aadBuf (p : Nat) (s : State) : (goTo p s).aadBuf = s.aadBuf := rfl
@[simp] theorem goTo_textBuf (p : Nat) (s : State) : (goTo p s).textBuf = s.textBuf := rfl
@[simp] theorem goTo_pend (p : Nat) (s : State) : (goTo p s).pend = s.pend := rfl
@[simp] theorem goTo_sched (p : Nat) (s : State) : (goTo p s).sched = s.sched := rfl
@[simp] theorem goTo_epoch (p : Nat) (s : State) : (goTo p s).epoch = s.epoch := rfl
@[simp] theorem goTo_busyReads (p : Nat) (s : State) : (goTo p s).busyReads = s.busyReads := rfl
@[simp] theorem goTo_host (p : Nat) (s : State) : (goTo p s).host = { s.host with pos := p } := rfl
@[simp] theorem goTo_turns (p : Nat) (s : State) : (goTo p s).turns = s.turns := rfl

/-! The fields after the Host's going on. -/

@[simp] theorem advance_ie (s : State) : (advance s).ie = s.ie := rfl
@[simp] theorem advance_busy (s : State) : (advance s).busy = s.busy := rfl
@[simp] theorem advance_doneBit (s : State) : (advance s).doneBit = s.doneBit := rfl
@[simp] theorem advance_ovr (s : State) : (advance s).ovr = s.ovr := rfl
@[simp] theorem advance_sv (s : State) : (advance s).sv = s.sv := rfl
@[simp] theorem advance_err (s : State) : (advance s).err = s.err := rfl
@[simp] theorem advance_nr (s : State) : (advance s).nr = s.nr := rfl
@[simp] theorem advance_keylen (s : State) : (advance s).keylen = s.keylen := rfl
@[simp] theorem advance_aadlen (s : State) : (advance s).aadlen = s.aadlen := rfl
@[simp] theorem advance_textlen (s : State) : (advance s).textlen = s.textlen := rfl
@[simp] theorem advance_key (s : State) : (advance s).key = s.key := rfl
@[simp] theorem advance_nonce (s : State) : (advance s).nonce = s.nonce := rfl
@[simp] theorem advance_tag (s : State) : (advance s).tag = s.tag := rfl
@[simp] theorem advance_bin (s : State) : (advance s).bin = s.bin := rfl
@[simp] theorem advance_bout (s : State) : (advance s).bout = s.bout := rfl
@[simp] theorem advance_aadBuf (s : State) : (advance s).aadBuf = s.aadBuf := rfl
@[simp] theorem advance_textBuf (s : State) : (advance s).textBuf = s.textBuf := rfl
@[simp] theorem advance_pend (s : State) : (advance s).pend = s.pend := rfl
@[simp] theorem advance_sched (s : State) : (advance s).sched = s.sched := rfl
@[simp] theorem advance_epoch (s : State) : (advance s).epoch = s.epoch := rfl
@[simp] theorem advance_busyReads (s : State) : (advance s).busyReads = s.busyReads := rfl
@[simp] theorem advance_host (s : State) : (advance s).host = { s.host with pos := s.host.pos + 1 } := rfl
@[simp] theorem advance_turns (s : State) : (advance s).turns = s.turns := rfl

/-! The fields after an EXPECT. -/

@[simp] theorem checkExpect_ie (b : Bool) (s : State) : (checkExpect b s).ie = s.ie := rfl
@[simp] theorem checkExpect_busy (b : Bool) (s : State) : (checkExpect b s).busy = s.busy := rfl
@[simp] theorem checkExpect_doneBit (b : Bool) (s : State) : (checkExpect b s).doneBit = s.doneBit := rfl
@[simp] theorem checkExpect_ovr (b : Bool) (s : State) : (checkExpect b s).ovr = s.ovr := rfl
@[simp] theorem checkExpect_sv (b : Bool) (s : State) : (checkExpect b s).sv = s.sv := rfl
@[simp] theorem checkExpect_err (b : Bool) (s : State) : (checkExpect b s).err = s.err := rfl
@[simp] theorem checkExpect_nr (b : Bool) (s : State) : (checkExpect b s).nr = s.nr := rfl
@[simp] theorem checkExpect_keylen (b : Bool) (s : State) : (checkExpect b s).keylen = s.keylen := rfl
@[simp] theorem checkExpect_aadlen (b : Bool) (s : State) : (checkExpect b s).aadlen = s.aadlen := rfl
@[simp] theorem checkExpect_textlen (b : Bool) (s : State) : (checkExpect b s).textlen = s.textlen := rfl
@[simp] theorem checkExpect_key (b : Bool) (s : State) : (checkExpect b s).key = s.key := rfl
@[simp] theorem checkExpect_nonce (b : Bool) (s : State) : (checkExpect b s).nonce = s.nonce := rfl
@[simp] theorem checkExpect_tag (b : Bool) (s : State) : (checkExpect b s).tag = s.tag := rfl
@[simp] theorem checkExpect_bin (b : Bool) (s : State) : (checkExpect b s).bin = s.bin := rfl
@[simp] theorem checkExpect_bout (b : Bool) (s : State) : (checkExpect b s).bout = s.bout := rfl
@[simp] theorem checkExpect_aadBuf (b : Bool) (s : State) : (checkExpect b s).aadBuf = s.aadBuf := rfl
@[simp] theorem checkExpect_textBuf (b : Bool) (s : State) : (checkExpect b s).textBuf = s.textBuf := rfl
@[simp] theorem checkExpect_pend (b : Bool) (s : State) : (checkExpect b s).pend = s.pend := rfl
@[simp] theorem checkExpect_sched (b : Bool) (s : State) : (checkExpect b s).sched = s.sched := rfl
@[simp] theorem checkExpect_epoch (b : Bool) (s : State) : (checkExpect b s).epoch = s.epoch := rfl
@[simp] theorem checkExpect_busyReads (b : Bool) (s : State) : (checkExpect b s).busyReads = s.busyReads := rfl
@[simp] theorem checkExpect_host (b : Bool) (s : State) : (checkExpect b s).host = { s.host with failed := s.host.failed || !b } := rfl
@[simp] theorem checkExpect_turns (b : Bool) (s : State) : (checkExpect b s).turns = s.turns := rfl

/-! What the reset event leaves alone (70_reset_and_hazards.md R270; log 9). -/

@[simp] theorem resetEvent_busyReads (s : State) : (resetEvent s).busyReads = s.busyReads := rfl
@[simp] theorem resetEvent_host (s : State) : (resetEvent s).host = s.host := rfl
@[simp] theorem resetEvent_turns (s : State) : (resetEvent s).turns = s.turns := rfl
@[simp] theorem resetEvent_ie (s : State) : (resetEvent s).ie = false := rfl
@[simp] theorem resetEvent_busy (s : State) : (resetEvent s).busy = false := rfl
@[simp] theorem resetEvent_doneBit (s : State) : (resetEvent s).doneBit = false := rfl
@[simp] theorem resetEvent_ovr (s : State) : (resetEvent s).ovr = false := rfl
@[simp] theorem resetEvent_sv (s : State) : (resetEvent s).sv = false := rfl
@[simp] theorem resetEvent_err (s : State) : (resetEvent s).err = 0 := rfl
@[simp] theorem resetEvent_nr (s : State) : (resetEvent s).nr = 0 := rfl
@[simp] theorem resetEvent_keylen (s : State) : (resetEvent s).keylen = 0 := rfl
@[simp] theorem resetEvent_aadlen (s : State) : (resetEvent s).aadlen = 0 := rfl
@[simp] theorem resetEvent_textlen (s : State) : (resetEvent s).textlen = 0 := rfl
@[simp] theorem resetEvent_aadBuf (s : State) : (resetEvent s).aadBuf = [] := rfl
@[simp] theorem resetEvent_textBuf (s : State) : (resetEvent s).textBuf = [] := rfl
@[simp] theorem resetEvent_pend (s : State) : (resetEvent s).pend = Config.drawnPend (s.epoch + 1) := rfl
@[simp] theorem resetEvent_epoch (s : State) : (resetEvent s).epoch = s.epoch + 1 := rfl

end Sys2Proof.Machine
end

