-- ==== Sys2Proof/Laws/Bus.lean ====
section
/-! SUPPORT. What bus accesses and Host turns can do, said once. -/

namespace Sys2Proof.Machine

open Sys2Proof

theorem windowSize_eq : Config.windowSize = 0x8000 := rfl

/-- An offset below 0x8000 is in the window (20_memory.md R60). -/
theorem windowOffset_offset (off : Nat) (h : off < 0x8000) : windowOffset (.offset off) = some off := by
  rw [← windowSize_eq] at h
  simp only [windowOffset, if_pos h]

/-- The bus address BASE + off is the offset off (20_memory.md R73). -/
theorem windowOffset_bus (off : Nat) (h : off < 0x8000) : windowOffset (.bus (Config.base + off)) = some off := by
  rw [← windowSize_eq] at h
  have hc : Config.base ≤ Config.base + off ∧ Config.base + off < Config.base + Config.windowSize := by omega
  simp only [windowOffset, if_pos hc, Nat.add_sub_cancel_left]

/-- A bus address outside [BASE, BASE + 0x8000) is not decoded (20_memory.md R61). -/
theorem windowOffset_bus_outside (a : Nat) (h : a < Config.base ∨ Config.base + 0x8000 ≤ a) :
    windowOffset (.bus a) = none := by
  rw [← windowSize_eq] at h
  have hc : ¬ (Config.base ≤ a ∧ a < Config.base + Config.windowSize) := by omega
  simp only [windowOffset, if_neg hc]

/-- An aligned word access in the window is legal (20_memory.md R62, R64). -/
theorem legalOffset_word (off : Nat) (h : off < 0x8000) (h4 : off % 4 = 0) : legalOffset ⟨.offset off, 4⟩ = .ok off := by
  simp only [legalOffset, windowOffset_offset off h, h4, and_self, if_true]

/-- A misaligned access, or one of another width, is not (20_memory.md R62, R64, R66). -/
theorem legalOffset_illegal (off n : Nat) (h : off < 0x8000) (hn : n ≠ 4 ∨ off % 4 ≠ 0) :
    legalOffset ⟨.offset off, n⟩ = .error .busError := by
  have hc : ¬ (n = 4 ∧ off % 4 = 0) := by omega
  simp only [legalOffset, windowOffset_offset off h, if_neg hc]

/-- A legal offset is in the window, aligned, and its access 32 bits wide (20_memory.md R62, R64). -/
theorem legalOffset_ok (t : Target) (off : Nat) (h : legalOffset t = .ok off) :
    windowOffset t.addr = some off ∧ t.bytes = 4 ∧ off % 4 = 0 := by
  unfold legalOffset at h
  split at h
  · simp at h
  · rename_i o ho
    split at h <;> rename_i hc
    · simp only [Except.ok.injEq] at h; subst h; exact ⟨ho, hc⟩
    · simp at h

theorem holds_iff (r : ArrReg) (off : Nat) : r.holds off = true ↔ r.start ≤ off ∧ off < r.start + r.size := by
  simp [ArrReg.holds]

/-- The register an offset is found in holds it (10_state.md R21). -/
theorem arrayAt_holds (off : Nat) (r : ArrReg) (h : arrayAt off = some r) : r.holds off = true := by
  unfold arrayAt at h
  split_ifs at h <;> simp only [Option.some.injEq] at h <;> subst h <;> assumption

/-- The ranges of the byte arrays do not meet (10_state.md R21). -/
theorem holds_disjoint (q r : ArrReg) (off : Nat) (h : r.holds off = true) (hq : q ≠ r) : q.holds off = false := by
  rw [Bool.eq_false_iff, Ne, holds_iff]
  rw [holds_iff] at h
  intro hh
  cases q <;> cases r <;> first | exact hq rfl | simp_all [ArrReg.start, ArrReg.size, Config.aadMax, Config.textMax]; omega

/-- So an offset is found in the one array that holds it (20_memory.md R67). -/
theorem arrayAt_of_holds (off : Nat) (r : ArrReg) (h : r.holds off = true) : arrayAt off = some r := by
  have hq := fun q => holds_disjoint q r off h
  cases r <;> simp [arrayAt, h, hq]

/-- A read changes nothing but the count of free values drawn (20_memory.md R67; log 2). -/
theorem memRead_state (off : Nat) (s : State) :
    (memRead off s).2 = { s with busyReads := (memRead off s).2.busyReads } := by
  unfold memRead; split <;> rfl

/-- Everything a write can do (20_memory.md R68). -/
theorem memWrite_cases (off : Nat) (v : Word) (s : State) :
    (off = 0x0000 ∧ memWrite off v s = writeCtrl v s) ∨
    (off = 0x0004 ∧ memWrite off v s = writeStatus v s) ∨
    (off ≠ 0x0000 ∧ off ≠ 0x0004 ∧ s.busy = true ∧ memWrite off v s = { s with ovr := true }) ∨
    (s.busy = false ∧ (
      (off = 0x0008 ∧ memWrite off v s = accept v s) ∨
      (off = 0x000C ∧ memWrite off v s = { s with keylen := v.extractLsb' 0 8 }) ∨
      (off = 0x0010 ∧ memWrite off v s = { s with aadlen := v }) ∨
      (off = 0x0014 ∧ memWrite off v s = { s with textlen := v }) ∨
      (∃ r, r ≠ .bout ∧ arrayAt off = some r ∧ memWrite off v s = writeArray r (off - r.start) (ByteWord.ofWord v) s) ∨
      (memWrite off v s = s))) := by
  by_cases h0 : off = 0x0000
  · exact .inl ⟨h0, by simp [memWrite, h0]⟩
  by_cases h4 : off = 0x0004
  · exact .inr (.inl ⟨h4, by simp [memWrite, h4]⟩)
  cases hb : s.busy
  · refine .inr (.inr (.inr ⟨rfl, ?_⟩))
    by_cases h8 : off = 0x0008
    · exact .inl ⟨h8, by simp [memWrite, h8, hb]⟩
    by_cases hC : off = 0x000C
    · exact .inr (.inl ⟨hC, by simp [memWrite, hC, hb]⟩)
    by_cases h10 : off = 0x0010
    · exact .inr (.inr (.inl ⟨h10, by simp [memWrite, h10, hb]⟩))
    by_cases h14 : off = 0x0014
    · exact .inr (.inr (.inr (.inl ⟨h14, by simp [memWrite, h14, hb]⟩)))
    cases hr : arrayAt off with
    | none => exact .inr (.inr (.inr (.inr (.inr (by simp [memWrite, h0, h4, h8, hC, h10, h14, hb, hr])))))
    | some r =>
      by_cases hbo : r = .bout
      · subst hbo
        exact .inr (.inr (.inr (.inr (.inr (by simp [memWrite, h0, h4, h8, hC, h10, h14, hb, hr])))))
      · refine .inr (.inr (.inr (.inr (.inl ⟨r, hbo, hr.symm ▸ rfl, ?_⟩))))
        cases r <;> simp_all [memWrite]
  · exact .inr (.inr (.inl ⟨h0, h4, rfl, by simp [memWrite, h0, h4, hb]⟩))

/-- Everything a bus access can do to the state. -/
theorem busAccess_cases (a : Access) (s : State) :
    (∃ f, busAccess a s = (.error f, s)) ∨
    (∃ off, legalOffset a.target = .ok off ∧ a.kind = .read ∧ busAccess a s = (.data (memRead off s).1, (memRead off s).2)) ∨
    (∃ off v, legalOffset a.target = .ok off ∧ a.kind = .write v ∧ busAccess a s = (.written, memWrite off v s)) := by
  unfold busAccess
  cases ho : legalOffset a.target with
  | error f => exact .inl ⟨f, rfl⟩
  | ok off =>
    cases hk : a.kind with
    | read => exact .inr (.inl ⟨off, rfl, rfl, rfl⟩)
    | write v => exact .inr (.inr ⟨off, v, rfl, rfl, rfl⟩)

/-! The Host's variables (30_encoding.md R99, R100): read after write. -/

/-- A key that is not filtered out is found as before. -/
theorem lookup_filter_ne {α β : Type} [DecidableEq α] (x y : α) (h : y ≠ x) (ps : List (α × β)) :
    (ps.filter (fun p => p.1 ≠ x)).lookup y = ps.lookup y := by
  induction ps with
  | nil => rfl
  | cons p ps ih =>
    obtain ⟨a, b⟩ := p
    rw [List.filter_cons]
    by_cases ha : a = x
    · subst ha
      rw [if_neg (by simp), ih, List.lookup_cons, beq_eq_false_iff_ne.mpr h]
    · rw [if_pos (by simpa using ha), List.lookup_cons, List.lookup_cons, ih]

@[simp] theorem getVar_setVar_same (x : Var) (v : Word) (s : State) : getVar (setVar x v s) x = some v := by
  simp [getVar]

theorem getVar_setVar_ne (x y : Var) (v : Word) (s : State) (h : y ≠ x) : getVar (setVar x v s) y = getVar s y := by
  simp only [getVar, setVar_host, List.lookup_cons, beq_eq_false_iff_ne.mpr h]
  exact lookup_filter_ne x y h _

@[simp] theorem getBytes_setBytes_same (n : Nat) (bs : List Byte) (s : State) : getBytes (setBytes n bs s) n = some bs := by
  simp [getBytes]

theorem getBytes_setBytes_ne (n m : Nat) (bs : List Byte) (s : State) (h : m ≠ n) :
    getBytes (setBytes n bs s) m = getBytes s m := by
  simp only [getBytes, setBytes_host, List.lookup_cons, beq_eq_false_iff_ne.mpr h]
  exact lookup_filter_ne n m h _

@[simp] theorem getVar_advance (s : State) (x : Var) : getVar (advance s) x = getVar s x := rfl
@[simp] theorem getBytes_advance (s : State) (n : Nat) : getBytes (advance s) n = getBytes s n := rfl
@[simp] theorem getBytes_setVar (x : Var) (v : Word) (s : State) (n : Nat) : getBytes (setVar x v s) n = getBytes s n := rfl
@[simp] theorem getVar_setBytes (n : Nat) (bs : List Byte) (s : State) (x : Var) : getVar (setBytes n bs s) x = getVar s x := rfl

/-- Everything a Host access that goes on can do: a read or a write, and a change of the Host. -/
theorem hostAccess_next (a : Access) (x : Option Var) (s t : State) (h : hostAccess a x s = .next t) :
    (∃ off, legalOffset a.target = .ok off ∧ a.kind = .read ∧
      t = { s with host := t.host, busyReads := (memRead off s).2.busyReads }) ∨
    (∃ off v, legalOffset a.target = .ok off ∧ a.kind = .write v ∧ t = { memWrite off v s with host := t.host }) := by
  unfold hostAccess at h
  rcases busAccess_cases a s with ⟨f, e⟩ | ⟨off, ho, hk, e⟩ | ⟨off, v, ho, hk, e⟩ <;> rw [e] at h
  · simp at h
  · refine .inl ⟨off, ho, hk, ?_⟩
    cases x <;> simp only [Host.Outcome.next.injEq] at h <;> subst h <;> rw [memRead_state off s] <;> rfl
  · refine .inr ⟨off, v, ho, hk, ?_⟩
    simp only [Host.Outcome.next.injEq] at h; subst h; rfl

/-- Everything a Host statement that goes on can do. -/
theorem hostStmt_next (st : Stmt) (s t : State) (h : hostStmt st s = .next t) :
    t = { s with host := t.host } ∨
    (∃ off tg, st.access = some ⟨.read, tg⟩ ∧ legalOffset tg = .ok off ∧
      t = { s with host := t.host, busyReads := (memRead off s).2.busyReads }) ∨
    (∃ off tg v, st = .write tg v ∧ legalOffset tg = .ok off ∧ t = { memWrite off v s with host := t.host }) := by
  cases st with
  | write tg v =>
    simp only [hostStmt] at h
    rcases hostAccess_next _ _ _ _ h with ⟨off, _, hk, _⟩ | ⟨off, w, ho, hk, e⟩
    · simp at hk
    · simp only [AccessKind.write.injEq] at hk; subst hk; exact .inr (.inr ⟨off, tg, v, rfl, ho, e⟩)
  | read tg =>
    simp only [hostStmt] at h
    rcases hostAccess_next _ _ _ _ h with ⟨off, ho, _, e⟩ | ⟨off, w, _, hk, _⟩
    · exact .inr (.inl ⟨off, tg, rfl, ho, e⟩)
    · simp at hk
  | readTo tg x =>
    simp only [hostStmt] at h
    rcases hostAccess_next _ _ _ _ h with ⟨off, ho, _, e⟩ | ⟨off, w, _, hk, _⟩
    · exact .inr (.inl ⟨off, tg, rfl, ho, e⟩)
    · simp at hk
  | expect x v => simp only [hostStmt, Host.Outcome.next.injEq] at h; subst h; exact .inl rfl
  | bindBytes n k =>
    simp only [hostStmt] at h
    split at h
    · simp at h
    · simp only [Host.Outcome.next.injEq] at h; subst h; exact .inl rfl
  | expectBytes n bs => simp only [hostStmt, Host.Outcome.next.injEq] at h; subst h; exact .inl rfl
  | label l => simp only [hostStmt, Host.Outcome.next.injEq] at h; subst h; exact .inl rfl
  | ifGoto x b l =>
    simp only [hostStmt] at h
    split at h
    · simp at h
    · split at h
      · split at h
        · simp at h
        · simp only [Host.Outcome.next.injEq] at h; subst h; exact .inl rfl
      · simp only [Host.Outcome.next.injEq] at h; subst h; exact .inl rfl

/-! What a write does to each field it can reach only in one way, or not at all (20_memory.md R68). -/

@[simp] theorem memWrite_sv (off : Nat) (v : Word) (s : State) : (memWrite off v s).sv = s.sv := by
  rcases memWrite_cases off v s with ⟨_, e⟩ | ⟨_, e⟩ | ⟨_, _, _, e⟩ |
    ⟨_, ⟨_, e⟩ | ⟨_, e⟩ | ⟨_, e⟩ | ⟨_, e⟩ | ⟨r, _, _, e⟩ | e⟩ <;> rw [e] <;> try rfl
  cases r <;> rfl

@[simp] theorem memWrite_nr (off : Nat) (v : Word) (s : State) : (memWrite off v s).nr = s.nr := by
  rcases memWrite_cases off v s with ⟨_, e⟩ | ⟨_, e⟩ | ⟨_, _, _, e⟩ |
    ⟨_, ⟨_, e⟩ | ⟨_, e⟩ | ⟨_, e⟩ | ⟨_, e⟩ | ⟨r, _, _, e⟩ | e⟩ <;> rw [e] <;> try rfl
  cases r <;> rfl

@[simp] theorem memWrite_bout (off : Nat) (v : Word) (s : State) : (memWrite off v s).bout = s.bout := by
  rcases memWrite_cases off v s with ⟨_, e⟩ | ⟨_, e⟩ | ⟨_, _, _, e⟩ |
    ⟨_, ⟨_, e⟩ | ⟨_, e⟩ | ⟨_, e⟩ | ⟨_, e⟩ | ⟨r, hr, _, e⟩ | e⟩ <;> rw [e] <;> try rfl
  cases r <;> first | rfl | exact absurd rfl hr

@[simp] theorem memWrite_sched (off : Nat) (v : Word) (s : State) : (memWrite off v s).sched = s.sched := by
  rcases memWrite_cases off v s with ⟨_, e⟩ | ⟨_, e⟩ | ⟨_, _, _, e⟩ |
    ⟨_, ⟨_, e⟩ | ⟨_, e⟩ | ⟨_, e⟩ | ⟨_, e⟩ | ⟨r, _, _, e⟩ | e⟩ <;> rw [e] <;> try rfl
  cases r <;> rfl

@[simp] theorem memWrite_epoch (off : Nat) (v : Word) (s : State) : (memWrite off v s).epoch = s.epoch := by
  rcases memWrite_cases off v s with ⟨_, e⟩ | ⟨_, e⟩ | ⟨_, _, _, e⟩ |
    ⟨_, ⟨_, e⟩ | ⟨_, e⟩ | ⟨_, e⟩ | ⟨_, e⟩ | ⟨r, _, _, e⟩ | e⟩ <;> rw [e] <;> try rfl
  cases r <;> rfl

@[simp] theorem memWrite_busyReads (off : Nat) (v : Word) (s : State) : (memWrite off v s).busyReads = s.busyReads := by
  rcases memWrite_cases off v s with ⟨_, e⟩ | ⟨_, e⟩ | ⟨_, _, _, e⟩ |
    ⟨_, ⟨_, e⟩ | ⟨_, e⟩ | ⟨_, e⟩ | ⟨_, e⟩ | ⟨r, _, _, e⟩ | e⟩ <;> rw [e] <;> try rfl
  cases r <;> rfl

@[simp] theorem memWrite_host (off : Nat) (v : Word) (s : State) : (memWrite off v s).host = s.host := by
  rcases memWrite_cases off v s with ⟨_, e⟩ | ⟨_, e⟩ | ⟨_, _, _, e⟩ |
    ⟨_, ⟨_, e⟩ | ⟨_, e⟩ | ⟨_, e⟩ | ⟨_, e⟩ | ⟨r, _, _, e⟩ | e⟩ <;> rw [e] <;> try rfl
  cases r <;> rfl

@[simp] theorem memWrite_turns (off : Nat) (v : Word) (s : State) : (memWrite off v s).turns = s.turns := by
  rcases memWrite_cases off v s with ⟨_, e⟩ | ⟨_, e⟩ | ⟨_, _, _, e⟩ |
    ⟨_, ⟨_, e⟩ | ⟨_, e⟩ | ⟨_, e⟩ | ⟨_, e⟩ | ⟨r, _, _, e⟩ | e⟩ <;> rw [e] <;> try rfl
  cases r <;> rfl

theorem memWrite_ie (off : Nat) (v : Word) (s : State) :
    (memWrite off v s).ie = (if off = 0x0000 then v.getLsbD 0 else s.ie) := by
  unfold memWrite
  split_ifs <;> try simp_all [writeCtrl, writeStatus, accept]
  split <;> try simp_all
  cases ‹ArrReg› <;> simp_all [writeArray]

theorem memWrite_busy (off : Nat) (v : Word) (s : State) :
    (memWrite off v s).busy = (s.busy || off == 0x0008) := by
  unfold memWrite
  split_ifs <;> try simp_all [writeCtrl, writeStatus, accept]
  split <;> try simp_all
  cases ‹ArrReg› <;> simp_all [writeArray]

theorem memWrite_doneBit (off : Nat) (v : Word) (s : State) :
    (memWrite off v s).doneBit = (if off = 0x0004 then s.doneBit && !v.getLsbD 1 else if off = 0x0008 ∧ s.busy = false then false else s.doneBit) := by
  unfold memWrite
  split_ifs <;> try simp_all [writeCtrl, writeStatus, accept]
  split <;> try simp_all
  cases ‹ArrReg› <;> simp_all [writeArray]

theorem memWrite_ovr (off : Nat) (v : Word) (s : State) :
    (memWrite off v s).ovr = (if off = 0x0004 then s.ovr && !v.getLsbD 2 else s.ovr || (s.busy && off != 0x0000)) := by
  unfold memWrite
  split_ifs <;> try simp_all [writeCtrl, writeStatus, accept]
  split <;> try simp_all
  cases ‹ArrReg› <;> simp_all [writeArray]

theorem memWrite_err (off : Nat) (v : Word) (s : State) :
    (memWrite off v s).err = (if off = 0x0008 ∧ s.busy = false then 0 else s.err) := by
  unfold memWrite
  split_ifs <;> try simp_all [writeCtrl, writeStatus, accept]
  split <;> try simp_all
  cases ‹ArrReg› <;> simp_all [writeArray]

theorem memWrite_pend (off : Nat) (v : Word) (s : State) :
    (memWrite off v s).pend = (if off = 0x0008 ∧ s.busy = false then v else s.pend) := by
  unfold memWrite
  split_ifs <;> try simp_all [writeCtrl, writeStatus, accept]
  split <;> try simp_all
  cases ‹ArrReg› <;> simp_all [writeArray]

/-- Every write keeps both buffers in canonical form (20_memory.md R68). -/
theorem memWrite_wf (off : Nat) (v : Word) (s : State) (ha : Memory.wf s.aadBuf) (ht : Memory.wf s.textBuf) :
    Memory.wf (memWrite off v s).aadBuf ∧ Memory.wf (memWrite off v s).textBuf := by
  rcases memWrite_cases off v s with ⟨_, e⟩ | ⟨_, e⟩ | ⟨_, _, _, e⟩ |
    ⟨_, ⟨_, e⟩ | ⟨_, e⟩ | ⟨_, e⟩ | ⟨_, e⟩ | ⟨r, _, _, e⟩ | e⟩ <;> rw [e] <;> try exact ⟨ha, ht⟩
  cases r <;> first | exact ⟨ha, ht⟩ | exact ⟨storeList_wf _ _ _ ha, ht⟩ | exact ⟨ha, storeList_wf _ _ _ ht⟩

end Sys2Proof.Machine
end

