-- ==== Sys2Proof/Laws/Gcm.lean ====
section
/-! SUPPORT. Small facts about the GCM core functions. -/

namespace Sys2Proof.Gcm

open Sys2Proof

/-- `q` blocks of counter mode give as many bytes as they take, up to 16 q. -/
theorem gctrBlocks_length (w : List ByteWord) (nr q : Nat) (cb : Block) (x : List Byte) :
    (gctrBlocks w nr q cb x).length = min x.length (16 * q) := by
  induction q generalizing cb x with
  | zero => simp [gctrBlocks]
  | succ q ih => simp only [gctrBlocks, List.length_append, xorBytes_length, List.length_take, Block.toList_length, ih,
      List.length_drop]; omega

@[simp] theorem gctr_length (w : List ByteWord) (nr : Nat) (icb : Block) (x : List Byte) :
    (gctr w nr icb x).length = x.length := by
  rw [gctr, gctrBlocks_length]; omega

@[simp] theorem zeroPad_length (n : Nat) : (zeroPad n).length = (16 - n % 16) % 16 := by simp [zeroPad]

/-- The hash input is a whole number of blocks (R188). -/
theorem hashInput_length (a c : List Byte) :
    (hashInput a c).length = 16 * ((a.length + 15) / 16 + (c.length + 15) / 16 + 1) := by
  simp only [hashInput, List.length_append, zeroPad_length, be64_length]; omega

end Sys2Proof.Gcm
end

