-- ==== Sys2Proof/Laws/Exec.lean ====
section
/-! SUPPORT. What a completion can do, said once per command; the claims cite these and do not unfold the meanings. -/

namespace Sys2Proof.Machine

open Sys2Proof

theorem finish_eq (r : ResultCode × State) : finish r = .next (complete r.1 r.2) := rfl

theorem keyLengthLegal_iff (kl : Nat) : keyLengthLegal kl = true ↔ kl = 16 ∨ kl = 24 ∨ kl = 32 := by
  simp [keyLengthLegal, or_assoc]

theorem lengthsLegal_iff (s : State) :
    lengthsLegal s = true ↔ s.aadlen.toNat ≤ Config.aadMax ∧ s.textlen.toNat ≤ Config.textMax := by
  simp [lengthsLegal]

/-- The key operand of a legal length has that length. -/
theorem keyOperand_length (s : State) (h : keyLengthLegal (keyLength s) = true) :
    (keyOperand s).length = keyLength s := by
  rw [keyLengthLegal_iff] at h
  simp only [keyOperand, List.length_take, KeyReg.toList_length]
  omega

@[simp] theorem aadOperand_length (s : State) : (aadOperand s).length = s.aadlen.toNat := by simp [aadOperand]

@[simp] theorem textOperand_length (s : State) : (textOperand s).length = s.textlen.toNat := by simp [textOperand]

/-- What reading TEXT_BUF finds after a store of the text (43_gcm_commands.md R210). -/
theorem textByte_storeText (bs : List Byte) (s : State) (i : Nat) :
    textByte (storeText bs s) i = if i < bs.length then bs.getD i 0 else textByte s i := by
  simp only [textByte, storeText_textBuf, storeText_epoch, lookup_storeList]
  by_cases h : i < bs.length
  · simp [h]
  · simp [h]

/-- Every command ends in a next state, with the STATUS update of one code (60_exceptions.md R236). -/
theorem exec_eq (i : Instr) (s : State) : ∃ r : ResultCode × State, exec i s = .next (complete r.1 r.2) := by
  cases i <;> exact ⟨_, rfl⟩

theorem execExpandKey_cases (s t : State) (h : exec .expandKey s = .next t) :
    (keyLengthLegal (keyLength s) = true ∧ t = complete .ok { s with
        sched := Aes.keyExpansion (keyOperand s), nr := BitVec.ofNat 4 (Aes.nrOf (keyLength s)), sv := true }) ∨
    (keyLengthLegal (keyLength s) = false ∧ t = complete .invalidKeyLength { s with sv := false, nr := 0 }) := by
  simp only [exec, execExpandKey, finish, expandKeyBody] at h
  split at h <;> rename_i hk
  · exact .inl ⟨hk, by simpa using h.symm⟩
  · exact .inr ⟨by simpa using hk, by simpa using h.symm⟩

theorem execEncryptBlock_cases (s t : State) (h : exec .encryptBlock s = .next t) :
    (s.sv = true ∧ t = complete .ok { s with bout := Aes.cipher s.sched (rounds s) s.bin }) ∨
    (s.sv = false ∧ t = complete .keyNotReady s) := by
  simp only [exec, execEncryptBlock, finish, encryptBlockBody] at h
  split at h <;> rename_i hk
  · exact .inl ⟨hk, by simpa using h.symm⟩
  · exact .inr ⟨by simpa using hk, by simpa using h.symm⟩

theorem execDecryptBlock_cases (s t : State) (h : exec .decryptBlock s = .next t) :
    (s.sv = true ∧ t = complete .ok { s with bout := Aes.invCipher s.sched (rounds s) s.bin }) ∨
    (s.sv = false ∧ t = complete .keyNotReady s) := by
  simp only [exec, execDecryptBlock, finish, decryptBlockBody] at h
  split at h <;> rename_i hk
  · exact .inl ⟨hk, by simpa using h.symm⟩
  · exact .inr ⟨by simpa using hk, by simpa using h.symm⟩

/-- The ciphertext and tag GCM_SEAL computes from a state (43_gcm_commands.md R210). -/
abbrev sealed (s : State) : List Byte × Block :=
  Gcm.gcmAe s.sched (rounds s) s.nonce (aadOperand s) (textOperand s)

theorem execGcmSeal_cases (s t : State) (h : exec .gcmSeal s = .next t) :
    (s.sv = true ∧ lengthsLegal s = true ∧
      t = complete .ok { storeText (sealed s).1 s with tag := (sealed s).2 }) ∨
    (s.sv = true ∧ lengthsLegal s = false ∧ t = complete .length s) ∨
    (s.sv = false ∧ t = complete .keyNotReady s) := by
  simp only [exec, execGcmSeal, finish, gcmSealBody] at h
  split at h <;> rename_i hk
  · split at h <;> rename_i hl
    · exact .inl ⟨hk, hl, by simpa using h.symm⟩
    · exact .inr (.inl ⟨hk, by simpa using hl, by simpa using h.symm⟩)
  · exact .inr (.inr ⟨by simpa using hk, by simpa using h.symm⟩)

/-- What GCM_OPEN computes from a state: the plaintext, or none for a tag that does not match (43_gcm_commands.md R211). -/
abbrev opened (s : State) : Option (List Byte) :=
  Gcm.gcmAd s.sched (rounds s) s.nonce (aadOperand s) (textOperand s) s.tag

theorem execGcmOpen_cases (s t : State) (h : exec .gcmOpen s = .next t) :
    (∃ p, s.sv = true ∧ lengthsLegal s = true ∧ opened s = some p ∧ t = complete .ok (storeText p s)) ∨
    (s.sv = true ∧ lengthsLegal s = true ∧ opened s = none ∧ t = complete .authFail s) ∨
    (s.sv = true ∧ lengthsLegal s = false ∧ t = complete .length s) ∨
    (s.sv = false ∧ t = complete .keyNotReady s) := by
  simp only [exec, execGcmOpen, finish, gcmOpenBody] at h
  split at h <;> rename_i hk
  · split at h <;> rename_i hl
    · split at h <;> rename_i ho
      · exact .inl ⟨_, hk, hl, ho, by simpa using h.symm⟩
      · exact .inr (.inl ⟨hk, hl, ho, by simpa using h.symm⟩)
    · exact .inr (.inr (.inl ⟨hk, by simpa using hl, by simpa using h.symm⟩))
  · exact .inr (.inr (.inr ⟨by simpa using hk, by simpa using h.symm⟩))

/-! What each command answers, in the direction of running it. -/

theorem execExpandKey_ok (s : State) (h : keyLengthLegal (keyLength s) = true) :
    exec .expandKey s = .next (complete .ok { s with
      sched := Aes.keyExpansion (keyOperand s), nr := BitVec.ofNat 4 (Aes.nrOf (keyLength s)), sv := true }) := by
  rw [exec, execExpandKey, expandKeyBody, if_pos h]; rfl

theorem execExpandKey_invalid (s : State) (h : keyLengthLegal (keyLength s) = false) :
    exec .expandKey s = .next (complete .invalidKeyLength { s with sv := false, nr := 0 }) := by
  rw [exec, execExpandKey, expandKeyBody, if_neg (by simp [h])]; rfl

theorem execEncryptBlock_ok (s : State) (h : s.sv = true) :
    exec .encryptBlock s = .next (complete .ok { s with bout := Aes.cipher s.sched (rounds s) s.bin }) := by
  rw [exec, execEncryptBlock, encryptBlockBody, if_pos h]; rfl

theorem execEncryptBlock_notReady (s : State) (h : s.sv = false) :
    exec .encryptBlock s = .next (complete .keyNotReady s) := by
  rw [exec, execEncryptBlock, encryptBlockBody, if_neg (by simp [h])]; rfl

theorem execDecryptBlock_ok (s : State) (h : s.sv = true) :
    exec .decryptBlock s = .next (complete .ok { s with bout := Aes.invCipher s.sched (rounds s) s.bin }) := by
  rw [exec, execDecryptBlock, decryptBlockBody, if_pos h]; rfl

theorem execDecryptBlock_notReady (s : State) (h : s.sv = false) :
    exec .decryptBlock s = .next (complete .keyNotReady s) := by
  rw [exec, execDecryptBlock, decryptBlockBody, if_neg (by simp [h])]; rfl

theorem execGcmSeal_ok (s : State) (h : s.sv = true) (hl : lengthsLegal s = true) :
    exec .gcmSeal s = .next (complete .ok { storeText (sealed s).1 s with tag := (sealed s).2 }) := by
  rw [exec, execGcmSeal, gcmSealBody, if_pos h, if_pos hl]; rfl

theorem execGcmSeal_length (s : State) (h : s.sv = true) (hl : lengthsLegal s = false) :
    exec .gcmSeal s = .next (complete .length s) := by
  rw [exec, execGcmSeal, gcmSealBody, if_pos h, if_neg (by simp [hl])]; rfl

theorem execGcmSeal_notReady (s : State) (h : s.sv = false) :
    exec .gcmSeal s = .next (complete .keyNotReady s) := by
  rw [exec, execGcmSeal, gcmSealBody, if_neg (by simp [h])]; rfl

theorem execGcmOpen_ok (s : State) (p : List Byte) (h : s.sv = true) (hl : lengthsLegal s = true)
    (ho : opened s = some p) : exec .gcmOpen s = .next (complete .ok (storeText p s)) := by
  rw [exec, execGcmOpen, gcmOpenBody, if_pos h, if_pos hl, show Gcm.gcmAd _ _ _ _ _ _ = some p from ho]; rfl

theorem execGcmOpen_authFail (s : State) (h : s.sv = true) (hl : lengthsLegal s = true)
    (ho : opened s = none) : exec .gcmOpen s = .next (complete .authFail s) := by
  rw [exec, execGcmOpen, gcmOpenBody, if_pos h, if_pos hl, show Gcm.gcmAd _ _ _ _ _ _ = none from ho]; rfl

theorem execGcmOpen_length (s : State) (h : s.sv = true) (hl : lengthsLegal s = false) :
    exec .gcmOpen s = .next (complete .length s) := by
  rw [exec, execGcmOpen, gcmOpenBody, if_pos h, if_neg (by simp [hl])]; rfl

theorem execGcmOpen_notReady (s : State) (h : s.sv = false) :
    exec .gcmOpen s = .next (complete .keyNotReady s) := by
  rw [exec, execGcmOpen, gcmOpenBody, if_neg (by simp [h])]; rfl

/-- The plaintext GCM_OPEN releases has the ciphertext's length (43_gcm_commands.md R211). -/
theorem opened_length (s : State) (p : List Byte) (h : opened s = some p) : p.length = s.textlen.toNat := by
  simp only [opened, Gcm.gcmAd] at h
  split at h
  · simp only [Option.some.injEq] at h; rw [← h, Gcm.gctr_length, textOperand_length]
  · simp at h

end Sys2Proof.Machine
end

