-- ==== Sys2Proof/Laws/PerInstr.lean ====
section
/-! SUPPORT. The family EncodeFits: every command is well formed and its word is a legal command word of one format. -/

namespace Sys2Proof.Laws.EncodeFits

open Sys2Proof

/-- The command is well formed, its word is legal, and its word is its OP field with a zero MBZ field (30_encoding.md R91). -/
def Statement (i : Instr) : Prop :=
  i.wellFormed = true ∧ commandWordLegal (encode i) = true ∧ mbzField (encode i) = 0 ∧
    encode i = (opField (encode i)).zeroExtend 32

theorem expandKey : Statement .expandKey := by unfold Statement; decide

theorem encryptBlock : Statement .encryptBlock := by unfold Statement; decide

theorem decryptBlock : Statement .decryptBlock := by unfold Statement; decide

theorem gcmSeal : Statement .gcmSeal := by unfold Statement; decide

theorem gcmOpen : Statement .gcmOpen := by unfold Statement; decide

end Sys2Proof.Laws.EncodeFits
end

