-- ==== Sys2Proof/Laws/Step.lean ====
section
/-! SUPPORT. What a step can do, said once: whose turn it is, and what each turn does. -/

namespace Sys2Proof.Machine

open Sys2Proof

/-- A step is the next turn, taken with that turn off the list. -/
theorem step_eq (s : State) : step s = takeTurn (nextTurn s) { s with turns := s.turns.tail } := by
  unfold step nextTurn
  cases h : s.turns with
  | nil => simp only [List.headD_nil, List.tail_nil]; rw [← h]
  | cons t ts => rfl

/-- A run of any machine whose first step goes on. -/
theorem machine_run_succ (M : Host.Core) (n : Nat) (s v : M.State) (h : M.run (n + 1) s = .next v) :
    ∃ t, M.step s = .next t ∧ M.run n t = .next v := by
  rw [Host.Core.run] at h
  cases hs : M.step s with
  | next t => exact ⟨t, rfl, by rwa [hs] at h⟩
  | fault f => rw [hs] at h; cases h
  | refused r => rw [hs] at h; cases h

/-- The first step of a longer run that goes on goes on. -/
theorem run_succ (n : Nat) (s v : State) (h : Sys2Proof.core.run (n + 1) s = .next v) :
    ∃ t, step s = .next t ∧ Sys2Proof.core.run n t = .next v :=
  machine_run_succ Sys2Proof.core n s v h

/-- A run of no steps ends where it starts. -/
theorem run_zero (s v : State) (h : Sys2Proof.core.run 0 s = .next v) : s = v := by
  cases (show Host.Outcome.next s = Host.Outcome.next v from h)
  rfl

/-- What an Engine turn can do: nothing while idle, else the completion of a command or of an illegal word. -/
theorem engineTurn_cases (s : State) :
    (s.busy = false ∧ engineTurn s = .next s) ∨
    (s.busy = true ∧ ∃ i, decode s.pend = .ok i ∧ engineTurn s = exec i s) ∨
    (s.busy = true ∧ ∃ e, decode s.pend = .error e ∧ engineTurn s = .next (complete .illegalCmd s)) := by
  unfold engineTurn
  cases hb : s.busy
  · exact .inl ⟨rfl, by simp⟩
  · cases hd : decode s.pend with
    | ok i => exact .inr (.inl ⟨rfl, i, rfl, by simp [completeStep, hd]⟩)
    | error e => exact .inr (.inr ⟨rfl, e, rfl, by simp [completeStep, hd, completeIllegal, finish]⟩)

/-- What a Host turn that goes on can do. -/
theorem hostTurn_next (s t : State) (h : hostTurn s = .next t) :
    t = { s with host := t.host } ∨
    (∃ off st tg, nextStmt s = some st ∧ st.access = some ⟨.read, tg⟩ ∧ legalOffset tg = .ok off ∧
      t = { s with host := t.host, busyReads := (memRead off s).2.busyReads }) ∨
    (∃ off tg v, nextStmt s = some (.write tg v) ∧ legalOffset tg = .ok off ∧ t = { memWrite off v s with host := t.host }) := by
  unfold hostTurn at h
  split at h
  · rename_i st hst
    rcases hostStmt_next st s t h with e | ⟨off, tg, ha, ho, e⟩ | ⟨off, tg, v, hs, ho, e⟩
    · exact .inl e
    · exact .inr (.inl ⟨off, st, tg, hst, ha, ho, e⟩)
    · subst hs; exact .inr (.inr ⟨off, tg, v, hst, ho, e⟩)
  · simp only [Host.Outcome.next.injEq] at h; subst h; exact .inl rfl

/-- A state with its next turn taken off the list. -/
abbrev tookTurn (s : State) : State := { s with turns := s.turns.tail }

/-- The step that performs a Host write leaves what MemWrite leaves, but for the Host itself. -/
theorem step_write (s t : State) (off : Nat) (v : Word) (hw : HostWrites s off v) (h : step s = .next t) :
    t = { memWrite off v (tookTurn s) with host := t.host } := by
  obtain ⟨hn, tg, hst, ho⟩ := hw
  have hst' : nextStmt (tookTurn s) = some (.write tg v) := hst
  rw [step_eq, hn] at h
  change hostTurn (tookTurn s) = .next t at h
  rw [hostTurn, hst'] at h
  change hostAccess ⟨.write v, tg⟩ none (tookTurn s) = .next t at h
  rcases hostAccess_next _ _ _ _ h with ⟨o, _, hk, _⟩ | ⟨o, w, ho', hk, e⟩
  · cases hk
  · cases hk
    rw [show legalOffset tg = .ok o from ho'] at ho
    cases ho
    exact e

/-- Everything a step that goes on can do: a reset event; the Engine's turn while idle; a completion, of a command or of
an illegal word; a Host turn that changes only the Host and the count of free values; or a Host write. -/
theorem step_next (s t : State) (h : step s = .next t) :
    (nextTurn s = .reset ∧ t = resetEvent (tookTurn s)) ∨
    (nextTurn s = .engine ∧ s.busy = false ∧ t = tookTurn s) ∨
    (∃ i, Completes s i ∧ exec i (tookTurn s) = .next t) ∨
    (Completing s ∧ (∃ e, decode s.pend = .error e) ∧ t = complete .illegalCmd (tookTurn s)) ∨
    (nextTurn s = .host ∧ ∃ n, t = { tookTurn s with host := t.host, busyReads := n }) ∨
    (∃ off v, HostWrites s off v ∧ t = { memWrite off v (tookTurn s) with host := t.host }) := by
  rw [step_eq] at h
  cases hn : nextTurn s with
  | reset =>
    rw [hn] at h
    cases h
    exact .inl ⟨rfl, rfl⟩
  | engine =>
    rw [hn] at h
    change engineTurn (tookTurn s) = .next t at h
    rcases engineTurn_cases (tookTurn s) with ⟨hb, e⟩ | ⟨hb, i, hd, e⟩ | ⟨hb, er, hd, e⟩ <;> rw [e] at h
    · cases h; exact .inr (.inl ⟨rfl, hb, rfl⟩)
    · exact .inr (.inr (.inl ⟨i, ⟨hn, hb, hd⟩, h⟩))
    · cases h; exact .inr (.inr (.inr (.inl ⟨⟨hn, hb⟩, ⟨er, hd⟩, rfl⟩)))
  | host =>
    rw [hn] at h
    change hostTurn (tookTurn s) = .next t at h
    rcases hostTurn_next (tookTurn s) t h with e | ⟨off, st, tg, _, _, _, e⟩ | ⟨off, tg, v, hst, ho, e⟩
    · exact .inr (.inr (.inr (.inr (.inl ⟨rfl, s.busyReads, e⟩))))
    · exact .inr (.inr (.inr (.inr (.inl ⟨rfl, _, e⟩))))
    · exact .inr (.inr (.inr (.inr (.inr ⟨off, v, ⟨hn, tg, hst, ho⟩, e⟩))))

/-- Statements run one list after the other, if the first list goes on to its end. -/
theorem runStmts_append (a b : List Stmt) (s t : State) (h : runStmts a s = .next t) :
    runStmts (a ++ b) s = runStmts b t := by
  induction a generalizing s with
  | nil => cases h; rfl
  | cons st a ih =>
    simp only [List.cons_append, runStmts] at h ⊢
    split at h
    · exact ih _ h
    · cases h
    · cases h

/-- The transactions of a longer run whose first step goes on: that step's, then the rest's (30_encoding.md R99). -/
theorem encodeProgram_succ (n : Nat) (s t : State) (h : step s = .next t) :
    encodeProgram (n + 1) s = (nextAccess s).toList ++ encodeProgram n t := by
  simp only [encodeProgram, h]

/-- A run that stops in its first step has issued that step's transaction and no other. -/
theorem encodeProgram_fault (n : Nat) (s : State) (f : Fault) (h : step s = .fault f) :
    encodeProgram (n + 1) s = (nextAccess s).toList := by
  simp only [encodeProgram, h, List.append_nil]

end Sys2Proof.Machine
end

