-- ==== Sys2Proof/Tests/Slice0.lean ====
section
/-! SUPPORT. The model's own tests. Expected values are the spec's: the known answers and rows of 95_test_vectors.md
(section named at each test) or words written out from 30_encoding.md R91, R92. The theorems `test_witness_…` show, for
each obligation with hypotheses, that concrete states and operands meet them. -/

namespace Sys2Proof.Tests

open Sys2Proof Sys2Proof.Machine

/-! Helpers. -/

/-- A block from its 32 hex digits. -/
def blk (x : BitVec 128) : Block := Block.ofBits x

/-- A 4-byte word from its 8 hex digits. -/
def word (x : Word) : ByteWord := ByteWord.ofWord x

/-- The `n` bytes of a number written in hex, first byte leftmost. -/
def hex (n x : Nat) : List Byte := (List.range n).map (fun i => BitVec.ofNat 8 (x / 256 ^ (n - 1 - i)))

/-- KEY holding a byte sequence, zero beyond it. -/
def keyReg (k : List Byte) : KeyReg :=
  ⟨.ofList k, .ofList (k.drop 4), .ofList (k.drop 8), .ofList (k.drop 12), .ofList (k.drop 16), .ofList (k.drop 20),
    .ofList (k.drop 24), .ofList (k.drop 28)⟩

/-- After reset, with KEY and KEYLEN written. -/
def withKey (k : List Byte) : State := { State.reset with key := keyReg k, keylen := BitVec.ofNat 8 k.length }

/-- After reset, with the schedule of a key cached. -/
def ready (k : List Byte) : State :=
  { State.reset with sched := Aes.keyExpansion k, nr := BitVec.ofNat 4 (Aes.nrOf k.length), sv := true }

/-- The keys of 95_test_vectors.md A.1, C.1 to C.3. -/
def keyC1 : List Byte := hex 16 0x000102030405060708090a0b0c0d0e0f
def keyC2 : List Byte := hex 24 0x000102030405060708090a0b0c0d0e0f1011121314151617
def keyC3 : List Byte := hex 32 0x000102030405060708090a0b0c0d0e0f101112131415161718191a1b1c1d1e1f

/-- A buffer whose first bytes have been written. -/
def buffer (bs : List Byte) : Memory := Memory.storeList [] 0 bs

/-- A check on the next state of an outcome. -/
def leads (o : Host.Outcome State Fault Refusal) (p : State → Bool) : Bool :=
  match o with
  | .next t => p t
  | .fault _ => false
  | .refused _ => false

/-- A word accepted right after reset. -/
def pending (w : Word) : State := accept w State.reset

/-- The Host's turn, with one statement of its program left. -/
def hostAt (st : Stmt) (s : State) : State := { s with host := ⟨[st], 0, [], [], false⟩, turns := [.host] }

/-! WellFormed: each check refuses an ill-formed term. -/

theorem test_word_mbz_refused : commandWordLegal 0x00000011 = false ∧ commandWordLegal 0x80000001 = false := by decide
theorem test_word_op_zero_refused : commandWordLegal 0x00000000 = false := by decide
theorem test_word_op_reserved_refused : commandWordLegal 0x00000006 = false ∧ commandWordLegal 0x0000000F = false := by
  decide
theorem test_word_legal : commandWordLegal 0x00000001 = true ∧ commandWordLegal 0x00000005 = true := by decide
theorem test_target_outside_refused : targetWellFormed ⟨.offset 0x8000, 4⟩ = false := by decide
theorem test_target_width_refused : targetWellFormed ⟨.offset 0x0060, 2⟩ = false := by decide
theorem test_target_misaligned_refused : targetWellFormed ⟨.offset 0x0062, 4⟩ = false := by decide
theorem test_target_bus_refused : targetWellFormed ⟨.bus 0x0060, 4⟩ = false := by decide
theorem test_target_legal : targetWellFormed ⟨.offset 0x7FFC, 4⟩ = true := by decide
theorem test_jump_missing_label_refused : programWellFormed [.ifGoto (.named 0) 0 7] = false := by decide
theorem test_jump_bit_refused : programWellFormed [.label 7, .ifGoto (.named 0) 32 7] = false := by decide
theorem test_program_legal : programWellFormed (hostCmd .gcmSeal ++ hostWait 7 (.named 0) ++ hostAck) = true := by decide

/-! Decoding: OP in bits [3:0], MBZ in bits [31:4], written out bit by bit (30_encoding.md R91, R92; 95 C.1). -/

theorem test_decode_expandKey : decode (0b0000000000000000000000000000#28 ++ 0b0001#4) = .ok .expandKey := by decide
theorem test_decode_encryptBlock : decode (0b0000000000000000000000000000#28 ++ 0b0010#4) = .ok .encryptBlock := by decide
theorem test_decode_decryptBlock : decode (0b0000000000000000000000000000#28 ++ 0b0011#4) = .ok .decryptBlock := by decide
theorem test_decode_gcmSeal : decode (0b0000000000000000000000000000#28 ++ 0b0100#4) = .ok .gcmSeal := by decide
theorem test_decode_gcmOpen : decode (0b0000000000000000000000000000#28 ++ 0b0101#4) = .ok .gcmOpen := by decide
theorem test_decode_mbz : decode (0b0000000000000000000000010000#28 ++ 0b0101#4) = .error .mbzNotZero := by decide
theorem test_decode_reserved : decode (0b0000000000000000000000000000#28 ++ 0b1111#4) = .error (.reservedOp 15) := by
  decide

/-! GF(2^8), the S-boxes and the round transforms (95 A.3). -/

theorem test_xtime : Aes.xtime 0x57 = 0xae ∧ Aes.xtime 0x80 = 0x1b ∧ Aes.xtime 0xff = 0xe5 := by decide
theorem test_gmul : Aes.gmul 0x57 0x83 = 0xc1 ∧ Aes.gmul 0x57 0x13 = 0xfe ∧ Aes.gmul 0xff 0xff = 0x13 := by
  decide +kernel
theorem test_inv : Aes.inv 0x53 = 0xca ∧ Aes.inv 0xff = 0x1c := by decide +kernel
theorem test_sbox : Aes.sbox 0x53 = 0xed ∧ Aes.sbox 0x7f = 0xd2 ∧ Aes.sbox 0xcf = 0x8a ∧ Aes.sbox 0xff = 0x16 := by
  decide
theorem test_invSbox : Aes.invSbox 0xed = 0x53 ∧ Aes.invSbox 0x52 = 0x48 ∧ Aes.invSbox 0x16 = 0xff := by decide
theorem test_rcon : Aes.rcon 8 = word 0x80000000 ∧ Aes.rcon 9 = word 0x1b000000 ∧ Aes.rcon 10 = word 0x36000000 := by
  decide
theorem test_rotWord_subWord : Aes.rotWord (word 0x09cf4f3c) = word 0xcf4f3c09 ∧
    Aes.subWord (word 0xcf4f3c09) = word 0x8a84eb01 := by decide
theorem test_subBytes : Aes.subBytes (blk 0x00102030405060708090a0b0c0d0e0f0) = blk 0x63cab7040953d051cd60e0e7ba70e18c := by
  decide +kernel
theorem test_shiftRows : Aes.shiftRows (blk 0x63cab7040953d051cd60e0e7ba70e18c) = blk 0x6353e08c0960e104cd70b751bacad0e7 := by
  decide +kernel
theorem test_mixColumns : Aes.mixColumns (blk 0x6353e08c0960e104cd70b751bacad0e7) = blk 0x5f72641557f5bc92f7be3b291db9f91a := by
  decide +kernel
theorem test_mixColumn : Aes.mixColumn (word 0xdb135345) = word 0x8e4da1bc ∧
    Aes.invMixColumn (word 0x8e4da1bc) = word 0xdb135345 := by decide +kernel

/-! Key expansion (95 A.2, A.4). -/

theorem test_keyExpansion_128 : Aes.wordAt (Aes.keyExpansion (hex 16 0x2b7e151628aed2a6abf7158809cf4f3c)) 4 = word 0xa0fafe17 ∧
    Aes.wordAt (Aes.keyExpansion (hex 16 0x2b7e151628aed2a6abf7158809cf4f3c)) 23 = word 0x11f915bc := by decide +kernel
theorem test_keyExpansion_192 : Aes.wordAt (Aes.keyExpansion (hex 24 0)) 51 = word 0x984c5970 := by decide +kernel
theorem test_keyExpansion_256 : Aes.wordAt (Aes.keyExpansion (hex 32 0)) 59 = word 0xcb706385 := by decide +kernel

/-! The AES commands (95 A.1, C.3). -/

theorem test_expandKey_256 : leads (exec .expandKey (withKey keyC3))
    (fun t => statusWord t == 0x00000E0A && Aes.wordAt t.sched 59 == word 0x6d68de36) = true := by decide +kernel
theorem test_expandKey_illegal_length : leads (exec .expandKey { ready keyC1 with keylen := 20 })
    (fun t => statusWord t == 0x00000022) = true := by decide +kernel
theorem test_encryptBlock_256 : leads (exec .encryptBlock { ready keyC3 with bin := blk 0x00112233445566778899aabbccddeeff })
    (fun t => statusWord t == 0x00000E0A && t.bout == blk 0x8ea2b7ca516745bfeafc49904b496089) = true := by decide +kernel
theorem test_encryptBlock_not_ready : leads (exec .encryptBlock State.reset)
    (fun t => statusWord t == 0x00000032 && t.bout == .zero) = true := by decide
theorem test_decryptBlock_192 : leads (exec .decryptBlock { ready keyC2 with bin := blk 0xdda97ca4864cdfe06eaf70a0ec0d7191 })
    (fun t => statusWord t == 0x00000C0A && t.bout == blk 0x00112233445566778899aabbccddeeff) = true := by decide +kernel
theorem test_decryptBlock_128 : leads (exec .decryptBlock { ready keyC1 with bin := blk 0x69c4e0d86a7b0430d8cdb78070b4c55a })
    (fun t => statusWord t == 0x00000A0A && t.bout == blk 0x00112233445566778899aabbccddeeff) = true := by decide +kernel

/-! GF(2^128), inc32 (95 B.5) and the GCM commands (95 C.4). -/

theorem test_gf128Mul_wrap : Gcm.gf128Mul 0x40000000000000000000000000000000 0x00000000000000000000000000000001 =
    0xe1000000000000000000000000000000 := by decide +kernel
theorem test_gf128Mul : Gcm.gf128Mul 0x0388dace60b6a392f328c2b971b2fe78 0x66e94bd4ef8a2c3b884cfa59ca342b2e =
    0x5e2ec746917062882c85b0685353deb7 := by decide +kernel
theorem test_inc32 : Gcm.inc32 (blk 0xcafebabefacedbaddecaf888000000ff) = blk 0xcafebabefacedbaddecaf88800000100 ∧
    Gcm.inc32 (blk 0xffffffffffffffffffffffffffffffff) = blk 0xffffffffffffffffffffffff00000000 := by decide +kernel

/-- The operands of 95 C.4, row 2: AADLEN 13, TEXTLEN 16, NONCE 10 11 .. 1b, the C.1 key. -/
def gcmRow (text : List Byte) (tag : Block) : State :=
  { ready keyC1 with
    nonce := ⟨word 0x10111213, word 0x14151617, word 0x18191a1b⟩
    aadlen := 13, aadBuf := buffer (hex 13 0x808182838485868788898a8b8c)
    textlen := 16, textBuf := buffer text, tag := tag }

theorem test_gcmSeal : leads (exec .gcmSeal (gcmRow (hex 16 0x000102030405060708090a0b0c0d0e0f) .zero))
    (fun t => statusWord t == 0x00000A0A && textOperand t == hex 16 0xc42f01ac0b4ab0e81fd457fecb2ae531 &&
      t.tag == blk 0x84f61d59512c542973bcca96e599f954) = true := by decide +kernel
theorem test_gcmSeal_length : leads (exec .gcmSeal { gcmRow (hex 16 0) .zero with aadlen := 257 })
    (fun t => statusWord t == 0x00000A4A && textOperand t == hex 16 0 && t.tag == .zero) = true := by decide +kernel
theorem test_gcmOpen : leads (exec .gcmOpen
      (gcmRow (hex 16 0xc42f01ac0b4ab0e81fd457fecb2ae531) (blk 0x84f61d59512c542973bcca96e599f954)))
    (fun t => statusWord t == 0x00000A0A && textOperand t == hex 16 0x000102030405060708090a0b0c0d0e0f) = true := by
  decide +kernel
theorem test_gcmOpen_auth_fail : leads (exec .gcmOpen
      (gcmRow (hex 16 0xc42f01ac0b4ab0e81fd457fecb2ae531) (blk 0x84f61d59512c542973bcca96e599f955)))
    (fun t => statusWord t == 0x00000A5A && textOperand t == hex 16 0xc42f01ac0b4ab0e81fd457fecb2ae531 &&
      t.tag == blk 0x84f61d59512c542973bcca96e599f955) = true := by decide +kernel

/-! The bus and illegal words (95 C.1, C.2, C.6). -/

theorem test_illegal_word : leads (engineTurn (pending 0x00000105)) (fun t => statusWord t == 0x00000012) = true := by decide
theorem test_bus_lanes : (memWrite 0x0040 0xCAFEBABE State.reset).nonce.w0 = ⟨0xCA, 0xFE, 0xBA, 0xBE⟩ := by decide
theorem test_bus_key_write_only : (memRead 0x0020 (memWrite 0x0020 0x2B7E1516 State.reset)).1 = 0 := by decide
theorem test_bus_keylen : (memRead 0x000C (memWrite 0x000C 0x12345610 State.reset)).1 = 0x10 := by decide
theorem test_bus_ctrl : (memRead 0x0000 (memWrite 0x0000 0xFFFFFFFF State.reset)).1 = 1 := by decide
theorem test_bus_bout : (memRead 0x0070 (memWrite 0x0070 0x11111111 State.reset)).1 = 0 := by decide
theorem test_bus_text : (memRead 0x4000 (memWrite 0x4000 0xDEADBEEF State.reset)).1 = 0xDEADBEEF := by decide
theorem test_bus_while_busy : (memRead 0x0004 (pending 0x00000002)).1 = 0x00000001 ∧
    (memRead 0x0004 (memWrite 0x0060 1 (pending 0x00000002))).1 = 0x00000005 := by decide
theorem test_bus_misaligned : (busAccess ⟨.write 0, ⟨.offset 0x0041, 4⟩⟩ State.reset).1 = .error .busError := by decide
theorem test_reset_while_busy : leads (step { pending 0x00000002 with turns := [.reset] })
    (fun t => statusWord t == 0 && t.bout == .zero) = true := by decide
theorem test_wbytes : hostWbytes 0x0060 [0x01, 0x02, 0x03, 0x04, 0x05] =
    [hostW 0x0060 0x01020304, hostW 0x0064 0x05000000] := by decide

/-! Witnesses: the hypotheses of each obligation are met together, each clause at its boundary values. -/

theorem test_witness_WordDecodesToItsCommandOnly : Instr.wellFormed .expandKey = true ∧ Instr.wellFormed .gcmOpen = true := by
  decide

theorem test_witness_IllegalWordCompletesWithCodeOne :
    (0x00000000 : Word).extractLsb' 0 4 = 0 ∧ 6 ≤ ((0x00000006 : Word).extractLsb' 0 4).toNat ∧
    6 ≤ ((0x0000000F : Word).extractLsb' 0 4).toNat ∧ (0x00000011 : Word).extractLsb' 4 28 ≠ 0 ∧
    (0xFFFFFFFF : Word).extractLsb' 4 28 ≠ 0 ∧
    (∀ p, (pending p).busy = true ∧ (pending p).pend = p) ∧ State.reset.busy = false :=
  ⟨rfl, by decide, by decide, by decide, by decide, fun _ => ⟨rfl, rfl⟩, rfl⟩

theorem test_witness_CommandAcceptance : State.reset.busy = false ∧ (pending 0x00000001).busy = true := by decide

theorem test_witness_StepRunsTheDecodedCommand :
    (pending 0x00000005).busy = true ∧ decode (pending 0x00000005).pend = .ok .gcmOpen ∧ (pending 0x00000005).turns = [] ∧
    { pending 0x00000005 with turns := [.engine] }.turns = .engine :: [] := by decide

theorem test_witness_EveryCompletionEndsPending : (pending 0x00000000).busy = true := by decide

theorem test_witness_LengthRegisters : State.reset.busy = false := by decide

theorem test_witness_ArrayWriteStoresItsFourBytes :
    State.reset.busy = false ∧
    ∀ r ∈ [ArrReg.key, .nonce, .tag, .bin, .aadBuf, .textBuf], r ≠ .bout ∧ r.holds r.start = true ∧ r.start % 4 = 0 ∧
      r.holds (r.start + r.size - 4) = true ∧ (r.start + r.size - 4) % 4 = 0 ∧ r.holds (r.start + r.size) = false := by
  decide

theorem test_witness_ArrayReadReturnsItsFourBytes :
    State.reset.busy = false ∧
    ∀ r ∈ [ArrReg.nonce, .tag, .bin, .bout, .aadBuf, .textBuf], r ≠ .key ∧ r.holds r.start = true ∧ r.start % 4 = 0 ∧
      r.holds (r.start + r.size - 4) = true ∧ (r.start + r.size - 4) % 4 = 0 ∧ r.holds (r.start + r.size) = false := by
  decide

theorem test_witness_WriteOnlyAndReadOnlyRegisters :
    (0x0008 % 4 = 0 ∧ ArrReg.key.holds 0x0020 = true ∧ ArrReg.key.holds 0x003C = true ∧ 0x003C % 4 = 0) ∧
    ArrReg.bout.holds 0x0070 = true ∧ ArrReg.bout.holds 0x007C = true ∧ 0x007C % 4 = 0 ∧ State.reset.busy = false := by decide

theorem test_witness_ReservedOffsetsAndBits :
    (∀ off ∈ [0x0018, 0x001C, 0x004C, 0x0080, 0x00FC, 0x0200, 0x3FFC],
      off % 4 = 0 ∧ (0x0018 ≤ off ∧ off ≤ 0x001F ∨ 0x004C ≤ off ∧ off ≤ 0x004F ∨ 0x0080 ≤ off ∧ off ≤ 0x00FF ∨
        0x0200 ≤ off ∧ off ≤ 0x3FFF) ∧ arrayAt off = none) ∧ State.reset.busy = false := by decide

theorem test_witness_IllegalAccessGetsBusError :
    ∀ a ∈ [(0x0000, 1), (0x0000, 8), (0x0002, 4), (0x7FFF, 4)], a.1 < 0x8000 ∧ (a.2 ≠ 4 ∨ a.1 % 4 ≠ 0) := by decide

theorem test_witness_WindowStandsAtBase : 0x7FFF < 0x8000 ∧
    (Config.base + 0x8000 < Config.base ∨ Config.base + 0x8000 ≤ Config.base + 0x8000) := by simp

theorem test_witness_ReadsHaveNoSideEffects : State.reset.busy = false := by decide

theorem test_witness_WritesWhilePending : (pending 0x00000002).busy = true ∧
    (∀ off ∈ [0x0008, 0x000C, 0x0018, 0x0070, 0x7FFC], off < 0x8000 ∧ off % 4 = 0 ∧ off ≠ 0x0000 ∧ off ≠ 0x0004) ∧
    0x7FFD < 0x8000 ∧ 0x7FFD % 4 ≠ 0 := by decide

/-- A pending command right after reset meets the invariants. -/
theorem pending_inv (w : Word) : BlockInv (pending w) := by
  refine ⟨?_, ?_, ?_, ?_, ?_, ?_, ?_, ?_, ?_, ?_⟩ <;> simp [pending, State.reset, State.resetAt, Memory.wf]

theorem test_witness_ReadsWhilePending :
    (pending 0x00000002).busy = true ∧ BlockInv (pending 0x00000002) ∧ State.reset.busy = false ∧
    (∀ off ∈ [0x0070, 0x007C, 0x0050, 0x005C, 0x4000, 0x7FFC], off < 0x8000 ∧ off % 4 = 0 ∧
      (ArrReg.bout.holds off = true ∨ ArrReg.tag.holds off = true ∨ ArrReg.textBuf.holds off = true)) ∧
    (∀ off ∈ [0x0000, 0x0004, 0x004C, 0x0060, 0x006C, 0x0080, 0x3FFC], off < 0x8000 ∧ off % 4 = 0 ∧
      ArrReg.bout.holds off = false ∧ ArrReg.tag.holds off = false ∧ ArrReg.textBuf.holds off = false) :=
  ⟨rfl, pending_inv _, rfl, by decide, by decide⟩

theorem test_witness_OperandsStandStillWhilePending :
    (hostAt (hostW 0x0060 1) (pending 0x00000002)).busy = true ∧
    ∃ t, hostTurn (hostAt (hostW 0x0060 1) (pending 0x00000002)) = .next t := ⟨rfl, _, rfl⟩

theorem test_witness_LatencyDoesNotChangeTheResult :
    ∃ v, { pending 0x00000002 with turns := [.host, .engine] }.busy = true ∧
      { pending 0x00000002 with turns := [.host, .engine] }.turns = List.replicate 1 .host ++ .engine :: [] ∧
      Sys2Proof.core.run 2 { pending 0x00000002 with turns := [.host, .engine] } = .next v := ⟨_, rfl, rfl, rfl⟩

theorem test_witness_PendingCommandCompletes :
    ∃ v, { pending 0x00000002 with turns := [.host] }.busy = true ∧
      { pending 0x00000002 with turns := [.host] }.turns = List.replicate 1 .host ∧
      Sys2Proof.core.run 2 { pending 0x00000002 with turns := [.host] } = .next v := ⟨_, rfl, rfl, rfl⟩

theorem test_witness_ExpandKeyResult :
    (withKey keyC1).keylen = 16 ∧ (withKey keyC2).keylen = 24 ∧ (withKey keyC3).keylen = 32 ∧
    ∀ k ∈ [(0 : BitVec 8), 15, 17, 255], { State.reset with keylen := k }.keylen ≠ 16 ∧
      { State.reset with keylen := k }.keylen ≠ 24 ∧ { State.reset with keylen := k }.keylen ≠ 32 := by decide +kernel

theorem test_witness_BlockResults : (ready keyC1).sv = true ∧ State.reset.sv = false := by decide

/-- The longest operands, and the shortest that are too long (43_gcm_commands.md R210 (d)). -/
def sized (a n : Word) : State := { ready keyC1 with aadlen := a, textlen := n }

theorem test_witness_GcmSealResult :
    (sized 256 16384).sv = true ∧ (sized 256 16384).aadlen.toNat ≤ 256 ∧ (sized 256 16384).textlen.toNat ≤ 16384 ∧
    256 < (sized 257 0).aadlen.toNat ∧ 16384 < (sized 0 16385).textlen.toNat ∧ State.reset.sv = false := by decide

/-- GCM_OPEN's success premise holds of any state whose TAG is the tag its rules compute; the empty AAD and text of
95 C.4 stand for it, and the row above, `test_gcmOpen`, for a text that is not empty. -/
theorem test_witness_GcmOpenResult :
    ∃ g p, { sized 0 0 with tag := g }.sv = true ∧ { sized 0 0 with tag := g }.aadlen.toNat ≤ 256 ∧
      { sized 0 0 with tag := g }.textlen.toNat ≤ 16384 ∧
      Gcm.gcmAd (sized 0 0).sched (sized 0 0).nr.toNat (sized 0 0).nonce (aadOperand (sized 0 0))
        (textOperand (sized 0 0)) g = some p ∧
      ∃ b, Gcm.gcmAd (sized 0 0).sched (sized 0 0).nr.toNat (sized 0 0).nonce (aadOperand (sized 0 0))
        (textOperand (sized 0 0)) b = none := by
  refine ⟨_, _, rfl, by decide, by decide, if_pos rfl, ?_⟩
  generalize ht : Gcm.tagOf (sized 0 0).sched (sized 0 0).nr.toNat (sized 0 0).nonce (aadOperand (sized 0 0))
    (textOperand (sized 0 0)) = x
  refine ⟨Block.ofBits (x.toBits + 1), ?_⟩
  rw [Gcm.gcmAd, ht, if_neg]
  intro h
  have h1 : x.toBits = x.toBits + 1 := by conv_lhs => rw [h, Block.toBits_ofBits]
  have h2 := congrArg BitVec.toNat h1
  rw [BitVec.toNat_add] at h2
  have := x.toBits.isLt
  simp at h2
  omega

theorem test_witness_Frames : ∀ i : Instr, ∃ t, exec i (sized 0 0) = .next t := by
  intro i
  obtain ⟨r, h⟩ := exec_eq i (sized 0 0)
  exact ⟨_, h⟩

theorem test_witness_ErrorsWriteNoDataOutput :
    ∃ t u, (pending 0x00000001).busy = true ∧ engineTurn (pending 0x00000001) = .next t ∧ t.err = 2 ∧ t.err ≠ 0 ∧
      engineTurn (pending 0x00000002) = .next u ∧ u.err ≠ 0 ∧ u.err ≠ 2 :=
  ⟨_, _, rfl, rfl, rfl, by decide, rfl, by decide, by decide⟩

theorem test_witness_ResultCodePriority :
    (pending 0x00000005).busy = true ∧
    (∃ t, engineTurn (pending 0x00000000) = .next t) ∧ (∃ t, engineTurn (pending 0x00000001) = .next t) ∧
    (∃ t, engineTurn (pending 0x00000002) = .next t) ∧ (∃ t, engineTurn (pending 0x00000003) = .next t) ∧
    (∃ t, engineTurn (pending 0x00000004) = .next t) ∧ ∃ t, engineTurn (pending 0x00000005) = .next t :=
  ⟨rfl, ⟨_, rfl⟩, ⟨_, rfl⟩, ⟨_, rfl⟩, ⟨_, rfl⟩, ⟨_, rfl⟩, ⟨_, rfl⟩⟩

theorem test_witness_KeyRegistersDoNotReachCipherCommands :
    Instr.gcmSeal ≠ .expandKey ∧ ∃ t, exec .gcmSeal (sized 0 0) = .next t :=
  ⟨by decide, test_witness_Frames .gcmSeal⟩

theorem test_witness_SboxTablesAreAsDefined : (0x01 : Byte) ≠ 0 ∧ (0xFF : Byte) ≠ 0 := by decide

theorem test_witness_KeyExpansionRecurrence :
    keyC1.length = 16 ∧ keyC2.length = 24 ∧ keyC3.length = 32 ∧ 7 < keyC3.length / 4 ∧ keyC3.length / 4 ≤ 8 ∧
    59 < (Aes.keyExpansion keyC3).length ∧ 8 % (keyC3.length / 4) = 0 ∧ 12 % (keyC3.length / 4) = 4 := by decide +kernel

theorem test_witness_CountersDoNotWrap : 1024 ≤ 1024 ∧ lengthsLegal (sized 256 16384) = true := by decide

theorem test_witness_GcmOpenUndoesGcmSeal :
    (sized 256 16384).sv = true ∧ (sized 256 16384).aadlen.toNat ≤ 256 ∧ (sized 256 16384).textlen.toNat ≤ 16384 ∧
    (⟨word 0, word 0, word 0, word 0⟩ : Block) ≠ ⟨word 1, word 0, word 0, word 0⟩ := by decide

/-- The write of a word to an aligned offset of the window is the Host's next step. -/
theorem hostWrites_at (off : Nat) (v : Word) (s : State) (h : off < 0x8000) (h4 : off % 4 = 0) :
    HostWrites (hostAt (hostW off v) s) off v :=
  ⟨rfl, _, rfl, legalOffset_word off h h4⟩

/-- Acceptance, completion and reset, each the next step of a state (10_state.md R27, R28). -/
theorem test_witness_BusyAndDone :
    (HostWrites (hostAt (hostW 0x0008 1) State.reset) 0x0008 1 ∧ (∃ t, step (hostAt (hostW 0x0008 1) State.reset) = .next t ∧
      State.reset.busy = false ∧ t.busy = true)) ∧
    (Completing (pending 0x00000002) ∧ ∃ t, step (pending 0x00000002) = .next t ∧ t.busy = false ∧
      (pending 0x00000002).doneBit = false ∧ t.doneBit = true) ∧
    (nextTurn { pending 0x00000002 with turns := [.reset] } = .reset ∧
      ∃ t, step { pending 0x00000002 with turns := [.reset] } = .next t ∧ t.busy = false) ∧
    (HostWrites (hostAt (hostW 0x0004 2) { State.reset with doneBit := true }) 0x0004 2 ∧
      ∃ t, step (hostAt (hostW 0x0004 2) { State.reset with doneBit := true }) = .next t ∧ t.doneBit = false) :=
  ⟨⟨hostWrites_at _ _ _ (by decide) (by decide), _, rfl, rfl, rfl⟩, ⟨⟨rfl, rfl⟩, _, rfl, rfl, rfl, rfl⟩,
    ⟨rfl, _, rfl, rfl⟩, ⟨hostWrites_at _ _ _ (by decide) (by decide), _, rfl, rfl⟩⟩

/-- A dropped write sets OVR, a STATUS write and a reset clear it, a completion leaves it (10_state.md R29). -/
theorem test_witness_OvrIsSticky :
    ((pending 0x00000002).busy = true ∧ HostWrites (hostAt (hostW 0x7FFC 1) (pending 0x00000002)) 0x7FFC 1 ∧
      ∃ t, step (hostAt (hostW 0x7FFC 1) (pending 0x00000002)) = .next t ∧ t.ovr = true) ∧
    (HostWrites (hostAt (hostW 0x0004 4) { State.reset with ovr := true }) 0x0004 4 ∧
      ∃ t, step (hostAt (hostW 0x0004 4) { State.reset with ovr := true }) = .next t ∧ t.ovr = false) ∧
    (Completing { pending 0x00000002 with ovr := true } ∧
      ∃ t, step { pending 0x00000002 with ovr := true } = .next t ∧ t.ovr = true) ∧
    (∃ t, step { State.reset with ovr := true, turns := [.reset] } = .next t ∧ t.ovr = false) :=
  ⟨⟨rfl, hostWrites_at _ _ _ (by decide) (by decide), _, rfl, rfl⟩,
    ⟨hostWrites_at _ _ _ (by decide) (by decide), _, rfl, rfl⟩, ⟨⟨rfl, rfl⟩, _, rfl, rfl⟩, ⟨_, rfl, rfl⟩⟩

/-- A successful EXPAND_KEY as the next step (10_state.md R30). -/
theorem test_witness_ScheduleChangesOnlyByExpandKey :
    Completes (accept 0x00000001 (withKey keyC1)) .expandKey ∧
    ∃ t, step (accept 0x00000001 (withKey keyC1)) = .next t ∧ t.sv = true ∧
      ¬ SameSchedule (accept 0x00000001 (withKey keyC1)) t := by
  have hk : keyLengthLegal (keyLength (accept 0x00000001 (withKey keyC1))) = true := by decide
  refine ⟨⟨rfl, rfl, by decide⟩, _, execExpandKey_ok _ hk, rfl, ?_⟩
  rintro ⟨h, -, -⟩
  cases h

theorem test_witness_OutputsStayWhileIdle :
    State.reset.busy = false ∧ nextTurn (hostAt (hostW 0x0060 1) State.reset) ≠ .reset ∧
    (∃ t, step (hostAt (hostW 0x0060 1) State.reset) = .next t) ∧
    ∀ off v, HostWrites (hostAt (hostW 0x0060 1) State.reset) off v →
      ArrReg.tag.holds off = false ∧ ArrReg.textBuf.holds off = false ∧ off ≠ 0x0008 := by
  refine ⟨rfl, by decide, ⟨_, rfl⟩, ?_⟩
  rintro off v ⟨-, t, ht, ho⟩
  cases ht
  rw [wordAtOffset, legalOffset_word 0x0060 (by decide) (by decide)] at ho
  cases ho
  decide

theorem test_witness_DrawnBytesStay : ∃ t, nextTurn (hostAt (hostW 0x4000 0) State.reset) ≠ .reset ∧
    step (hostAt (hostW 0x4000 0) State.reset) = .next t ∧ Memory.lookup t.aadBuf 0 = none ∧
    Memory.lookup t.textBuf 4 = none ∧ Memory.lookup t.textBuf 16383 = none := ⟨_, by decide, rfl, rfl, rfl, rfl⟩

/-- IRQ rises at a completion and at a write of IE, and falls at each of the Host's three writes (60_exceptions.md R240). -/
theorem test_witness_InterruptLevel :
    (∃ t, step { pending 0x00000002 with ie := true } = .next t ∧ irq { pending 0x00000002 with ie := true } = false ∧
      irq t = true) ∧
    (∃ t, step (hostAt (hostW 0x0000 1) { State.reset with doneBit := true }) = .next t ∧ irq t = true) ∧
    (∀ w ∈ [hostW 0x0000 0, hostW 0x0004 2, hostW 0x0008 1],
      irq (hostAt w { State.reset with ie := true, doneBit := true }) = true ∧
      leads (step (hostAt w { State.reset with ie := true, doneBit := true })) (fun t => !irq t) = true) :=
  ⟨⟨_, rfl, rfl, rfl⟩, ⟨_, rfl, rfl⟩, by decide⟩

theorem test_witness_ResetEvent : { pending 0x00000002 with turns := [.reset] }.turns = .reset :: [] := rfl

theorem test_witness_EveryStepKeepsTheInvariant :
    BlockInv (pending 0x00000002) ∧ ∃ t, step (pending 0x00000002) = .next t := ⟨pending_inv _, _, rfl⟩

/-- The key of the last EXPAND_KEY is known, and the next step is an ENCRYPT_BLOCK under its schedule. -/
theorem test_witness_ScheduleIsOfTheLastExpandedKey :
    ∃ t, (∃ key, some keyC1 = some key ∧ ScheduleOf (accept 0x00000002 (ready keyC1)) key) ∧
      step (accept 0x00000002 (ready keyC1)) = .next t ∧ t.sv = true :=
  ⟨_, ⟨keyC1, rfl, by decide, rfl, rfl⟩, execEncryptBlock_ok _ rfl, rfl⟩

/-- The Host before its program, and the turns that come. -/
def hostProgram (prog : List Stmt) (turns : List Turn) (s : State) : State :=
  { s with host := ⟨prog, 0, [], [], false⟩, turns := turns }

theorem test_witness_HostStatementsDoWhatTheySay :
    (0x7FFC < 0x8000 ∧ 0x7FFC % 4 = 0 ∧
      (let s : State := { State.reset with
         host := ⟨[.label 3, .ifGoto (.named 0) 0 3], 1, [(.named 0, 1), (.named 1, 2)], [], false⟩ }
       getVar s (.named 0) = some 1 ∧ (1 : Word).getLsbD 0 = true ∧ getVar s (.named 1) = some 2 ∧
         (2 : Word).getLsbD 0 = false ∧ s.host.prog[0]? = some (.label 3) ∧
         ∀ q, q < 0 → s.host.prog[q]? ≠ some (.label 3))) ∧
    State.reset.busy = false ∧ ∀ r ∈ [ArrReg.nonce, .tag, .bin, .bout, .aadBuf, .textBuf], r ≠ .key ∧ 0 ≤ r.size ∧ 5 ≤ r.size :=
  ⟨⟨by decide, by decide, by decide, by decide, by decide, by decide, rfl, fun _ h => absurd h (by omega)⟩, rfl, by decide⟩

/-- EXPECT on a byte sequence compares the whole value: neither a prefix nor a variable without a value passes (R99). -/
theorem test_expectBytes_is_exact :
    leads (hostStmt (.expectBytes 0 [1, 2]) (setBytes 0 [1, 2] State.reset)) (fun t => !t.host.failed) = true ∧
    leads (hostStmt (.expectBytes 0 [1]) (setBytes 0 [1, 2] State.reset)) (fun t => t.host.failed) = true ∧
    leads (hostStmt (.expectBytes 0 []) (setBytes 0 [1, 2] State.reset)) (fun t => t.host.failed) = true ∧
    leads (hostStmt (.expectBytes 0 [1, 2, 3]) (setBytes 0 [1, 2] State.reset)) (fun t => t.host.failed) = true ∧
    leads (hostStmt (.expectBytes 0 []) State.reset) (fun t => t.host.failed) = true := by decide

/-- RBYTES 0x0060, 5 binds the first five bytes of two words (30_encoding.md R100; BIN as 95 P1 writes it). -/
theorem test_rbytes : leads (runStmts (hostRbytes 0x0060 5 0) { State.reset with bin := blk 0x00112233445566778899aabbccddeeff })
    (fun t => getBytes t 0 == some [0x00, 0x11, 0x22, 0x33, 0x44]) = true := by decide +kernel

/-- 95 P4's first lines, with the completion step after the first read of the WAIT, which adds that read (section D). -/
theorem test_encoding_wait : encodeProgram 8 (hostProgram (hostCmd .encryptBlock ++ hostWait 0 (.named 0))
      [.host, .host, .host, .engine, .host, .host, .host, .host] State.reset) =
    [⟨.write 0x00000002, ⟨.offset 0x0008, 4⟩⟩, ⟨.read, ⟨.offset 0x0004, 4⟩⟩, ⟨.read, ⟨.offset 0x0004, 4⟩⟩] := by decide

/-- 95 P4's last line: the misaligned read is issued, and the Host stops there. -/
theorem test_encoding_bus_error : encodeProgram 2 (hostProgram [hostR 0x0002 (.named 0), hostW 0x0060 1] [] State.reset) =
    [⟨.read, ⟨.offset 0x0002, 4⟩⟩] := by decide

theorem test_witness_StatementsWithoutAccessLeaveTheBlock :
    ((Stmt.label 3).access = none ∧ (∃ t, hostStmt (.label 3) State.reset = .next t) ∧
      (Stmt.bindBytes 0 0).access = none ∧ (∃ t, hostStmt (.bindBytes 0 0) State.reset = .next t)) ∧
    (nextTurn (hostAt (hostW 0x0060 1) State.reset) = .host ∧ ∃ t, step (hostAt (hostW 0x0060 1) State.reset) = .next t) ∧
    (∃ v, (hostRbytes 0x0060 4 0 ++ hostAck).length = 3 ∧ (∀ st ∈ hostRbytes 0x0060 4 0 ++ hostAck, ∀ x b l, st ≠ .ifGoto x b l) ∧
      Sys2Proof.core.run 3 (hostProgram (hostRbytes 0x0060 4 0 ++ hostAck) [.host, .host, .host] State.reset) = .next v) ∧
    (let s := hostProgram (hostWait 0 (.named 0)) [.host, .host, .host] (pending 0x00000002)
     s.busy = true ∧ s.host.pos = 0 ∧ s.host.prog[0]? = some (.label 0) ∧ s.host.prog[1]? = some (hostR 0x0004 (.named 0)) ∧
       s.host.prog[2]? = some (.ifGoto (.named 0) 0 0) ∧ s.turns = List.replicate (3 * 1) .host) :=
  ⟨⟨rfl, ⟨_, rfl⟩, rfl, ⟨_, rfl⟩⟩, ⟨rfl, _, rfl⟩, ⟨_, rfl, by simp [hostRbytes, hostAck, hostW, hostR], rfl⟩, rfl, rfl, rfl, rfl, rfl, rfl⟩

theorem test_witness_WbytesStoresTheSequence :
    State.reset.busy = false ∧ (∀ r ∈ [ArrReg.key, .nonce, .tag, .bin, .aadBuf, .textBuf], r ≠ .bout ∧
      ([1, 2, 3] : List Byte).length ≤ r.size) ∧ (hex 12 0).length ≤ ArrReg.nonce.size := by decide

theorem test_witness_WellFormedProgramsMeetNoBusError :
    programWellFormed (hostAt (hostW 0x7FFC 1) State.reset).host.prog = true := by decide

end Sys2Proof.Tests
end

/-! # The state and its registers: proofs of the statements of 10_state.md. -/

namespace Sys2Proof.Machine

open Sys2Proof

section BusRules
/-! ## What one bus access answers, offset by offset (20_memory.md R67, R68) -/

/-- An aligned read in the window is MemRead (20_memory.md R67). -/
theorem busAccess_read_word (off : Nat) (s : State) (h : off < 0x8000) (h4 : off % 4 = 0) :
    busAccess ⟨.read, ⟨.offset off, 4⟩⟩ s = (.data (memRead off s).1, (memRead off s).2) := by
  simp only [busAccess, legalOffset_word off h h4]

/-- An aligned write in the window is MemWrite (20_memory.md R68). -/
theorem busAccess_write_word (off : Nat) (v : Word) (s : State) (h : off < 0x8000) (h4 : off % 4 = 0) :
    busAccess ⟨.write v, ⟨.offset off, 4⟩⟩ s = (.written, memWrite off v s) := by
  simp only [busAccess, legalOffset_word off h h4]

/-- Outside the outputs a read is exact whatever BUSY is (70_reset_and_hazards.md R277). -/
theorem memRead_of_not_output (off : Nat) (s : State) (h : isOutput off = false) :
    memRead off s = (readValue off s, s) := by
  simp [memRead, h]

/-- A read draws at most one free value, and none while BUSY = 0 (70_reset_and_hazards.md R277; log 2). -/
theorem memRead_busyReads (off : Nat) (s : State) :
    (memRead off s).2.busyReads = if s.busy && isOutput off then s.busyReads + 1 else s.busyReads := by
  unfold memRead; split <;> rfl

/-- The byte arrays stand above the registers and inside the window (10_state.md R21). -/
theorem holds_range (r : ArrReg) (off : Nat) (h : r.holds off = true) : 0x0020 ≤ off ∧ off < 0x8000 := by
  rw [holds_iff] at h
  cases r <;> simp only [ArrReg.start, ArrReg.size, Config.aadMax, Config.textMax] at h <;> omega

/-- No register stands inside a byte array (10_state.md R21). -/
theorem array_offset_not_register (r : ArrReg) (off : Nat) (h : r.holds off = true) :
    off ≠ 0x0000 ∧ off ≠ 0x0004 ∧ off ≠ 0x0008 ∧ off ≠ 0x000C ∧ off ≠ 0x0010 ∧ off ≠ 0x0014 := by
  have hr := holds_range r off h
  omega

/-- An offset is found in no array exactly when none holds it (20_memory.md R67). -/
theorem arrayAt_eq_none_iff (off : Nat) : arrayAt off = none ↔ ∀ r : ArrReg, r.holds off = false := by
  constructor
  · intro h r
    by_contra hr
    simp [arrayAt_of_holds off r (by simpa using hr)] at h
  · intro h
    cases hr : arrayAt off with
    | none => rfl
    | some r => exact absurd (arrayAt_holds off r hr) (by simp [h r])

/-- A byte array other than BOUT, TAG and TEXT_BUF is no output (70_reset_and_hazards.md R277). -/
theorem isOutput_of_holds (r : ArrReg) (off : Nat) (h : r.holds off = true) (hb : r ≠ .bout) (ht : r ≠ .tag)
    (hx : r ≠ .textBuf) : isOutput off = false := by
  simp [isOutput, holds_disjoint _ r off h hb.symm, holds_disjoint _ r off h ht.symm, holds_disjoint _ r off h hx.symm]

/-- KEY reads as zero (10_state.md R37). -/
theorem readValue_at_key (off : Nat) (s : State) (h : ArrReg.key.holds off = true) : readValue off s = 0 := by
  have hne := array_offset_not_register _ _ h
  simp [readValue, hne, arrayAt_of_holds off _ h]

/-- Writes to BOUT are ignored while BUSY = 0 (10_state.md R41). -/
theorem memWrite_at_bout (off : Nat) (v : Word) (s : State) (hb : s.busy = false) (h : ArrReg.bout.holds off = true) :
    memWrite off v s = s := by
  have hne := array_offset_not_register _ _ h
  simp [memWrite, hne, hb, arrayAt_of_holds off _ h]

/-- What a read returns at each offset does not depend on KEY (10_state.md R37). -/
theorem readValue_key_irrelevant (off : Nat) (k : KeyReg) (s : State) :
    readValue off { s with key := k } = readValue off s := by
  cases hr : arrayAt off with
  | none => simp only [readValue, hr]; rfl
  | some r => cases r <;> simp only [readValue, hr] <;> rfl

/-- The low byte of a word, as KEYLEN stores it and a read extends it (10_state.md R34). -/
theorem zeroExtend_low_byte (v : Word) : (v.extractLsb' 0 8).zeroExtend 32 = v &&& 0xFF := by
  refine BitVec.eq_of_toNat_eq ?_
  have hm : v.toNat &&& 255 = v.toNat % 256 := Nat.and_two_pow_sub_one_eq_mod v.toNat 8
  simp [hm]
  omega

end BusRules

section ReservedOffsets
/-! ## Reserved offsets (10_state.md R44) -/

/-- The reserved offsets of 10_state.md R44. -/
def ReservedOffset (off : Nat) : Prop :=
  0x0018 ≤ off ∧ off ≤ 0x001F ∨ 0x004C ≤ off ∧ off ≤ 0x004F ∨ 0x0080 ≤ off ∧ off ≤ 0x00FF ∨ 0x0200 ≤ off ∧ off ≤ 0x3FFF

/-- No byte array holds a reserved offset (10_state.md R21, R44). -/
theorem ReservedOffset.holds_eq_false {off : Nat} (h : ReservedOffset off) (r : ArrReg) : r.holds off = false := by
  rw [Bool.eq_false_iff, Ne, holds_iff]
  unfold ReservedOffset at h
  cases r <;> simp only [ArrReg.start, ArrReg.size, Config.aadMax, Config.textMax] <;> omega

/-- No register stands at a reserved offset (10_state.md R44). -/
theorem ReservedOffset.not_register {off : Nat} (h : ReservedOffset off) :
    off ≠ 0x0000 ∧ off ≠ 0x0004 ∧ off ≠ 0x0008 ∧ off ≠ 0x000C ∧ off ≠ 0x0010 ∧ off ≠ 0x0014 := by
  unfold ReservedOffset at h; omega

theorem ReservedOffset.memRead_eq {off : Nat} (h : ReservedOffset off) (s : State) : memRead off s = (0, s) := by
  rw [memRead_of_not_output off s (by simp [isOutput, h.holds_eq_false])]
  simp [readValue, h.not_register, (arrayAt_eq_none_iff off).mpr h.holds_eq_false]

theorem ReservedOffset.memWrite_eq {off : Nat} (h : ReservedOffset off) (v : Word) (s : State) (hb : s.busy = false) :
    memWrite off v s = s := by
  simp [memWrite, h.not_register, hb, (arrayAt_eq_none_iff off).mpr h.holds_eq_false]

end ReservedOffsets

section StatusBits
/-! ## The bits of STATUS (10_state.md R26) -/

theorem flagWord_getLsbD (b : Bool) (i : Nat) : (flagWord b).getLsbD i = (decide (i = 0) && b) := by
  cases b <;> simp [flagWord, BitVec.getLsbD_one]

/-- Every bit of STATUS (10_state.md R26). -/
theorem statusWord_getLsbD (s : State) (i : Nat) :
    (statusWord s).getLsbD i = (decide (i = 0) && s.busy || decide (i = 1) && s.doneBit || decide (i = 2) && s.ovr ||
      decide (i = 3) && s.sv || decide (4 ≤ i) && s.err.getLsbD (i - 4) || decide (8 ≤ i) && s.nr.getLsbD (i - 8)) := by
  simp only [statusWord, BitVec.getLsbD_or, BitVec.getLsbD_shiftLeft, flagWord_getLsbD, BitVec.truncate_eq_setWidth,
    BitVec.getLsbD_setWidth]
  by_cases h : i < 12
  · interval_cases i <;> simp
  · have hf : s.nr.getLsbD (i - 8) = false ∧ s.err.getLsbD (i - 4) = false :=
      ⟨BitVec.getLsbD_of_ge _ _ (by omega), BitVec.getLsbD_of_ge _ _ (by omega)⟩
    have hi : ¬ i - 3 = 0 ∧ ¬ i - 2 = 0 ∧ ¬ i - 1 = 0 ∧ ¬ i = 0 ∧ ¬ i = 1 ∧ ¬ i = 2 ∧ ¬ i = 3 := by omega
    simp [hf, hi]

/-- ERR is bits [7:4] of STATUS (10_state.md R26). -/
theorem statusWord_err (s : State) : (statusWord s).extractLsb' 4 4 = s.err := by
  refine BitVec.eq_of_getLsbD_eq fun i hi => ?_
  rw [BitVec.getLsbD_extractLsb', statusWord_getLsbD]
  interval_cases i <;> simp

/-- NR is bits [11:8] of STATUS (10_state.md R26). -/
theorem statusWord_nr (s : State) : (statusWord s).extractLsb' 8 4 = s.nr := by
  refine BitVec.eq_of_getLsbD_eq fun i hi => ?_
  rw [BitVec.getLsbD_extractLsb', statusWord_getLsbD]
  interval_cases i <;> simp

/-- The bits of STATUS above NR read 0 (10_state.md R26, R44). -/
theorem statusWord_getLsbD_high (s : State) (i : Nat) (h : 12 ≤ i) : (statusWord s).getLsbD i = false := by
  rw [statusWord_getLsbD, BitVec.getLsbD_of_ge s.err _ (by omega), BitVec.getLsbD_of_ge s.nr _ (by omega)]
  have hi : ¬ i = 0 ∧ ¬ i = 1 ∧ ¬ i = 2 ∧ ¬ i = 3 := by omega
  simp [hi]

theorem statusWord_high (s : State) : (statusWord s).extractLsb' 12 20 = 0 := by
  ext i hi
  simp [statusWord_getLsbD_high]

theorem statusWord_reserved (s : State) : statusWord s &&& 0xFFFFF000 = 0 := by
  ext i hi
  by_cases h : 12 ≤ i
  · simp [← BitVec.getLsbD_eq_getElem, statusWord_getLsbD_high s i h]
  · have : i < 12 := by omega
    interval_cases i <;> simp

/-- A STATUS write in the words of 10_state.md R26: bit 1 clears DONE, bit 2 clears OVR. -/
theorem writeStatus_eq (v : Word) (s : State) :
    writeStatus v s = { s with
      doneBit := if v.getLsbD 1 then false else s.doneBit
      ovr := if v.getLsbD 2 then false else s.ovr } := by
  unfold writeStatus
  cases v.getLsbD 1 <;> cases v.getLsbD 2 <;> simp

end StatusBits

section PowerOn
/-! ## The state a reset event leaves (10_state.md R50) -/

theorem zeroWord_byte (i : Nat) : ByteWord.byte ⟨0, 0, 0, 0⟩ i = 0 := by
  unfold ByteWord.byte; split <;> rfl

/-- After a reset event every byte of KEY, NONCE, TAG, BIN and BOUT is 0 (10_state.md R50). -/
theorem arrayByte_resetAt (epoch : Nat) (r : ArrReg) (i : Nat) (ha : r ≠ .aadBuf) (ht : r ≠ .textBuf) :
    arrayByte r i (State.resetAt epoch) = 0 := by
  have hz : readArray r (4 * (i / 4)) (State.resetAt epoch) = ⟨0, 0, 0, 0⟩ := by
    cases r with
    | key => simp only [readArray, KeyReg.getWord]; split <;> rfl
    | nonce => simp only [readArray, NonceReg.getWord]; split <;> rfl
    | tag | bin | bout => simp only [readArray, Block.getWord]; split <;> rfl
    | aadBuf => exact absurd rfl ha
    | textBuf => exact absurd rfl ht
  rw [arrayByte, hz, zeroWord_byte]

end PowerOn

section StepRules
/-! ## What the next step does, by its kind -/

/-- The flags the Host's writes reach: CTRL.IE and STATUS.BUSY, DONE and OVR (10_state.md R25, R27 to R29). -/
def SameFlags (s t : State) : Prop := t.ie = s.ie ∧ t.busy = s.busy ∧ t.doneBit = s.doneBit ∧ t.ovr = s.ovr

/-- Every completion leaves ERR a result code, BUSY = 0 and DONE = 1 (60_exceptions.md R236). -/
theorem exec_completes (i : Instr) (s t : State) (h : exec i s = .next t) : ∃ code, CompletedWith code t := by
  obtain ⟨r, e⟩ := exec_eq i s
  rw [e] at h
  cases h
  exact ⟨r.1, rfl, rfl, rfl⟩

/-- No command writes a register that is not an output, ERR, BUSY or DONE (30_encoding.md R95). -/
theorem exec_sameOperands (i : Instr) (s t : State) (h : exec i s = .next t) : SameOperands s t := by
  cases i with
  | expandKey =>
    rcases execExpandKey_cases s t h with ⟨_, rfl⟩ | ⟨_, rfl⟩ <;> simp [SameOperands, aadByte]
  | encryptBlock =>
    rcases execEncryptBlock_cases s t h with ⟨_, rfl⟩ | ⟨_, rfl⟩ <;> simp [SameOperands, aadByte]
  | decryptBlock =>
    rcases execDecryptBlock_cases s t h with ⟨_, rfl⟩ | ⟨_, rfl⟩ <;> simp [SameOperands, aadByte]
  | gcmSeal =>
    rcases execGcmSeal_cases s t h with ⟨_, _, rfl⟩ | ⟨_, _, rfl⟩ | ⟨_, rfl⟩ <;> simp [SameOperands, aadByte]
  | gcmOpen =>
    rcases execGcmOpen_cases s t h with ⟨_, _, _, _, rfl⟩ | ⟨_, _, _, rfl⟩ | ⟨_, _, rfl⟩ | ⟨_, rfl⟩ <;>
      simp [SameOperands, aadByte]

/-- Only EXPAND_KEY writes SV, NR and SCHED (10_state.md R30, R46). -/
theorem exec_sameSchedule (i : Instr) (s t : State) (hi : i ≠ .expandKey) (h : exec i s = .next t) :
    SameSchedule s t := by
  cases i with
  | expandKey => exact absurd rfl hi
  | encryptBlock => rcases execEncryptBlock_cases s t h with ⟨_, rfl⟩ | ⟨_, rfl⟩ <;> exact ⟨rfl, rfl, rfl⟩
  | decryptBlock => rcases execDecryptBlock_cases s t h with ⟨_, rfl⟩ | ⟨_, rfl⟩ <;> exact ⟨rfl, rfl, rfl⟩
  | gcmSeal =>
    rcases execGcmSeal_cases s t h with ⟨_, _, rfl⟩ | ⟨_, _, rfl⟩ | ⟨_, rfl⟩ <;> exact ⟨rfl, rfl, rfl⟩
  | gcmOpen =>
    rcases execGcmOpen_cases s t h with ⟨_, _, _, _, rfl⟩ | ⟨_, _, _, rfl⟩ | ⟨_, _, rfl⟩ | ⟨_, rfl⟩ <;>
      exact ⟨rfl, rfl, rfl⟩

/-- A reset turn is the reset event (70_reset_and_hazards.md R270). -/
theorem step_of_reset {s t : State} (h : step s = .next t) (hr : nextTurn s = .reset) :
    t = resetEvent (tookTurn s) := by
  rw [step_eq, hr] at h
  cases h
  rfl

/-- The Engine's turn, with that turn taken off the list (60_exceptions.md R236). -/
theorem step_of_engine {s : State} (hn : nextTurn s = .engine) : step s = engineTurn (tookTurn s) := by
  rw [step_eq, hn]; rfl

/-- The completion of a command is its exec (60_exceptions.md R236). -/
theorem step_of_completes {s : State} {i : Instr} (hc : Completes s i) : step s = exec i (tookTurn s) := by
  obtain ⟨hn, hb, hd⟩ := hc
  rw [step_of_engine hn]
  rcases engineTurn_cases (tookTurn s) with ⟨hb', _⟩ | ⟨_, j, hd', e⟩ | ⟨_, er, hd', _⟩
  · exact absurd hb (by simp [show s.busy = false from hb'])
  · cases hd.symm.trans hd'; exact e
  · cases hd.symm.trans hd'

/-- What every completion leaves, of a command or of an illegal word: BUSY = 0, DONE = 1, IE and OVR as they were
(60_exceptions.md R236; 10_state.md R29). -/
theorem step_of_completing {s t : State} (h : step s = .next t) (hc : Completing s) :
    t.ie = s.ie ∧ t.busy = false ∧ t.doneBit = true ∧ t.ovr = s.ovr := by
  obtain ⟨hn, hb⟩ := hc
  rw [step_of_engine hn] at h
  rcases engineTurn_cases (tookTurn s) with ⟨hb', _⟩ | ⟨_, i, _, e⟩ | ⟨_, _, _, e⟩
  · exact absurd hb (by simp [show s.busy = false from hb'])
  · rw [e] at h
    obtain ⟨_, _, hbusy, hdone⟩ := exec_completes i _ t h
    obtain ⟨hie, hovr, _⟩ := exec_sameOperands i _ t h
    exact ⟨hie, hbusy, hdone, hovr⟩
  · rw [e] at h
    cases h
    exact ⟨rfl, rfl, rfl, rfl⟩

/-! What a Host write leaves in each flag. -/

theorem step_write_ie {s t : State} {off : Nat} {v : Word} (h : step s = .next t) (hw : HostWrites s off v) :
    t.ie = if off = 0x0000 then v.getLsbD 0 else s.ie :=
  (congrArg State.ie (step_write s t off v hw h)).trans (memWrite_ie off v (tookTurn s))

theorem step_write_busy {s t : State} {off : Nat} {v : Word} (h : step s = .next t) (hw : HostWrites s off v) :
    t.busy = (s.busy || off == 0x0008) :=
  (congrArg State.busy (step_write s t off v hw h)).trans (memWrite_busy off v (tookTurn s))

theorem step_write_doneBit {s t : State} {off : Nat} {v : Word} (h : step s = .next t) (hw : HostWrites s off v) :
    t.doneBit = if off = 0x0004 then s.doneBit && !v.getLsbD 1
      else if off = 0x0008 ∧ s.busy = false then false else s.doneBit :=
  (congrArg State.doneBit (step_write s t off v hw h)).trans (memWrite_doneBit off v (tookTurn s))

theorem step_write_ovr {s t : State} {off : Nat} {v : Word} (h : step s = .next t) (hw : HostWrites s off v) :
    t.ovr = if off = 0x0004 then s.ovr && !v.getLsbD 2 else s.ovr || (s.busy && off != 0x0000) :=
  (congrArg State.ovr (step_write s t off v hw h)).trans (memWrite_ovr off v (tookTurn s))

/-- The kinds of step that can change a flag: a reset, a completion, a Host write; any other leaves all four. -/
theorem step_event {s t : State} (h : step s = .next t) :
    nextTurn s = .reset ∨ Completing s ∨ (∃ off v, HostWrites s off v) ∨ SameFlags s t := by
  rcases step_next s t h with ⟨hr, _⟩ | ⟨_, _, rfl⟩ | ⟨i, ⟨hn, hb, _⟩, _⟩ | ⟨hc, _⟩ | ⟨_, n, e⟩ | ⟨off, v, hw, _⟩
  · exact .inl hr
  · exact .inr (.inr (.inr ⟨rfl, rfl, rfl, rfl⟩))
  · exact .inr (.inl ⟨hn, hb⟩)
  · exact .inr (.inl hc)
  · rw [e]; exact .inr (.inr (.inr ⟨rfl, rfl, rfl, rfl⟩))
  · exact .inr (.inr (.inl ⟨off, v, hw⟩))

end StepRules

section FlagChanges
/-! ## Which steps raise and clear each flag (10_state.md R25, R27 to R29) -/

theorem step_busy_rises {s t : State} (h : step s = .next t) (hs : s.busy = false) (ht : t.busy = true) :
    ∃ v, HostWrites s 0x0008 v := by
  rcases step_event h with hr | hc | ⟨off, v, hw⟩ | ⟨_, hb, _⟩
  · simp [step_of_reset h hr] at ht
  · obtain ⟨_, hbusy, _⟩ := step_of_completing h hc
    simp [hbusy] at ht
  · have hoff : off = 0x0008 := by simpa [step_write_busy h hw, hs] using ht
    exact ⟨v, hoff ▸ hw⟩
  · simp [hb, hs] at ht

theorem step_busy_falls {s t : State} (h : step s = .next t) (hs : s.busy = true) (ht : t.busy = false) :
    Completing s ∨ nextTurn s = .reset := by
  rcases step_event h with hr | hc | ⟨off, v, hw⟩ | ⟨_, hb, _⟩
  · exact .inr hr
  · exact .inl hc
  · simp [step_write_busy h hw, hs] at ht
  · simp [hb, hs] at ht

theorem step_doneBit_rises {s t : State} (h : step s = .next t) (hs : s.doneBit = false) (ht : t.doneBit = true) :
    Completing s := by
  rcases step_event h with hr | hc | ⟨off, v, hw⟩ | ⟨_, _, hd, _⟩
  · simp [step_of_reset h hr] at ht
  · exact hc
  · simp [step_write_doneBit h hw, hs] at ht
  · simp [hd, hs] at ht

theorem step_doneBit_falls {s t : State} (h : step s = .next t) (hs : s.doneBit = true) (ht : t.doneBit = false) :
    (∃ v, HostWrites s 0x0008 v ∧ s.busy = false) ∨ (∃ v, HostWrites s 0x0004 v ∧ v.getLsbD 1 = true) ∨
      nextTurn s = .reset := by
  rcases step_event h with hr | hc | ⟨off, v, hw⟩ | ⟨_, _, hd, _⟩
  · exact .inr (.inr hr)
  · obtain ⟨_, _, hdone, _⟩ := step_of_completing h hc
    simp [hdone] at ht
  · rw [step_write_doneBit h hw] at ht
    split at ht
    next h4 => exact .inr (.inl ⟨v, h4 ▸ hw, by simpa [hs] using ht⟩)
    next =>
      split at ht
      next h8 => exact .inl ⟨v, h8.1 ▸ hw, h8.2⟩
      next => simp [hs] at ht
  · simp [hd, hs] at ht

theorem step_ovr_rises {s t : State} (h : step s = .next t) (hs : s.ovr = false) (ht : t.ovr = true) :
    s.busy = true ∧ ∃ off v, HostWrites s off v ∧ off ≠ 0x0000 ∧ off ≠ 0x0004 := by
  rcases step_event h with hr | hc | ⟨off, v, hw⟩ | ⟨_, _, _, ho⟩
  · simp [step_of_reset h hr] at ht
  · obtain ⟨_, _, _, hovr⟩ := step_of_completing h hc
    simp [hovr, hs] at ht
  · have hoff : off ≠ 0x0004 ∧ s.busy = true ∧ off ≠ 0x0000 := by simpa [step_write_ovr h hw, hs] using ht
    obtain ⟨h4, hb, h0⟩ := hoff
    exact ⟨hb, off, v, hw, h0, h4⟩
  · simp [ho, hs] at ht

theorem step_ovr_falls {s t : State} (h : step s = .next t) (hs : s.ovr = true) (ht : t.ovr = false) :
    (∃ v, HostWrites s 0x0004 v ∧ v.getLsbD 2 = true) ∨ nextTurn s = .reset := by
  rcases step_event h with hr | hc | ⟨off, v, hw⟩ | ⟨_, _, _, ho⟩
  · exact .inr hr
  · obtain ⟨_, _, _, hovr⟩ := step_of_completing h hc
    simp [hovr, hs] at ht
  · rw [step_write_ovr h hw] at ht
    split at ht
    next h4 => exact .inl ⟨v, h4 ▸ hw, by simpa [hs] using ht⟩
    next => simp [hs] at ht
  · simp [ho, hs] at ht

/-- CTRL.IE changes only by a CTRL write, which stores its bit 0, and by a reset (10_state.md R25). -/
theorem step_ie_changes {s t : State} (h : step s = .next t) (hne : t.ie ≠ s.ie) :
    (∃ v, HostWrites s 0x0000 v ∧ t.ie = v.getLsbD 0) ∨ nextTurn s = .reset := by
  rcases step_event h with hr | hc | ⟨off, v, hw⟩ | ⟨hie, _⟩
  · exact .inr hr
  · obtain ⟨hie, _⟩ := step_of_completing h hc
    exact absurd hie hne
  · have hie := step_write_ie h hw
    split at hie
    next h0 => exact .inl ⟨v, h0 ▸ hw, hie⟩
    next => exact absurd hie hne
  · exact absurd hie hne

end FlagChanges

section Schedule
/-! ## The cached schedule (10_state.md R30, R46, R49 b) -/

/-- A schedule of a key depends on NR and SCHED only. -/
theorem ScheduleOf.of_same {s t : State} {key : List Byte} (hk : ScheduleOf s key) (h : SameSchedule s t) :
    ScheduleOf t key := by
  obtain ⟨_, hnr, hsched⟩ := h
  rwa [ScheduleOf, hnr, hsched]

/-- The number of rounds of a legal key, in the four bits of NR (10_state.md R32). -/
theorem ofNat_nrOf_legal (n : Nat) (h : keyLengthLegal n = true) :
    (BitVec.ofNat 4 (Aes.nrOf n)).toNat = Aes.nrOf n ∧
      (BitVec.ofNat 4 (Aes.nrOf n) = 10 ∨ BitVec.ofNat 4 (Aes.nrOf n) = 12 ∨ BitVec.ofNat 4 (Aes.nrOf n) = 14) := by
  rw [keyLengthLegal_iff] at h
  rcases h with rfl | rfl | rfl <;> decide

/-- The schedule of a legal key has 10, 12 or 14 rounds (10_state.md R49 b). -/
theorem ScheduleOf.nr_legal {s : State} {key : List Byte} (h : ScheduleOf s key) :
    s.nr = 10 ∨ s.nr = 12 ∨ s.nr = 14 := by
  obtain ⟨hl, hnr, _⟩ := h
  rw [hnr]; exact (ofNat_nrOf_legal _ hl).2

/-- The schedule of a legal key has 4 (NR + 1) words (40_aes_core.md R124). -/
theorem ScheduleOf.sched_length {s : State} {key : List Byte} (h : ScheduleOf s key) :
    s.sched.length = 4 * (s.nr.toNat + 1) := by
  obtain ⟨hl, hnr, hsched⟩ := h
  rw [hsched, hnr, (ofNat_nrOf_legal _ hl).1, Aes.keyExpansion_length]

/-- EXPAND_KEY leaves SV = 1 exactly for a legal KEYLEN, and then the schedule of KEY[0..KEYLEN); else NR is 0
(41_aes_commands.md R160, R163). -/
theorem execExpandKey_schedule {s t : State} (h : exec .expandKey s = .next t) :
    t.sv = keyLengthLegal (keyLength s) ∧ (t.sv = true → ScheduleOf t (keyOperand s)) ∧ (t.sv = false → t.nr = 0) := by
  rcases execExpandKey_cases s t h with ⟨hl, rfl⟩ | ⟨hl, rfl⟩
  · refine ⟨hl.symm, fun _ => ?_, nofun⟩
    rw [ScheduleOf, keyOperand_length s hl]
    exact ⟨hl, rfl, rfl⟩
  · exact ⟨hl.symm, nofun, fun _ => rfl⟩

/-- Any step but a reset or the completion of an EXPAND_KEY leaves SV, NR and SCHED (10_state.md R30). -/
theorem step_sameSchedule {s t : State} (h : step s = .next t) (hr : nextTurn s ≠ .reset)
    (hc : ¬ Completes s .expandKey) : SameSchedule s t := by
  rcases step_next s t h with ⟨hr', _⟩ | ⟨_, _, rfl⟩ | ⟨i, hi, e⟩ | ⟨_, _, rfl⟩ | ⟨_, n, e⟩ | ⟨off, v, _, e⟩
  · exact absurd hr' hr
  · exact ⟨rfl, rfl, rfl⟩
  · exact exec_sameSchedule i (tookTurn s) t (fun hx => hc (hx ▸ hi)) e
  · exact ⟨rfl, rfl, rfl⟩
  · rw [e]; exact ⟨rfl, rfl, rfl⟩
  · rw [e]; exact ⟨memWrite_sv off v _, memWrite_nr off v _, memWrite_sched off v _⟩

/-- The completion of an EXPAND_KEY of legal length makes its key the last expanded one (41_aes_commands.md R163). -/
theorem lastKeyAfter_of_completes (k : Option (List Byte)) (s : State) (hc : Completes s .expandKey)
    (hl : keyLengthLegal (keyLength s) = true) : lastKeyAfter k s = some (keyOperand s) := by
  obtain ⟨hn, hb, hd⟩ := hc
  simp only [lastKeyAfter, hn, hb, hd, hl, if_true]

/-- No other step changes which key was expanded last (41_aes_commands.md R163). -/
theorem lastKeyAfter_of_not_completes (k : Option (List Byte)) (s : State) (hc : ¬ Completes s .expandKey) :
    lastKeyAfter k s = k := by
  unfold lastKeyAfter
  split
  next hn hb hd => exact absurd ⟨hn, hb, hd⟩ hc
  next => rfl

end Schedule

section Invariant
/-! ## The invariants of the state (10_state.md R49) -/

/-- Every result code is at most 5 (60_exceptions.md R230). -/
theorem ResultCode.bits_le (c : ResultCode) : c.bits.toNat ≤ 5 := by
  cases c <;> decide

/-- The state after any reset event meets the invariants (10_state.md R50). -/
theorem blockInv_resetAt (epoch : Nat) : BlockInv (State.resetAt epoch) where
  sv_nr := ⟨fun _ => rfl, fun _ => rfl⟩
  nr_legal := nofun
  sched_key := nofun
  sched_length := nofun
  busy_clear := nofun
  err_le := Nat.zero_le 5
  aad_wf := List.Pairwise.nil
  aad_size := nofun
  text_wf := List.Pairwise.nil
  text_size := nofun

/-- The invariants do not speak of the Host, the turns and the count of free values. -/
theorem BlockInv.outside {s : State} (hi : BlockInv s) (a : HostAgent) (n : Nat) (ts : List Turn) :
    BlockInv { s with host := a, busyReads := n, turns := ts } := { hi with }

/-- The writes that end a command keep the invariants (60_exceptions.md R236). -/
theorem BlockInv.complete {s : State} (hi : BlockInv s) (c : ResultCode) : BlockInv (complete c s) :=
  { hi with
    busy_clear := nofun
    err_le := c.bits_le }

/-- A schedule of a legal key with SV = 1 meets the invariants' clauses on it, and so does SV = 0 with NR = 0; the rest
of the invariants does not speak of SV, NR and SCHED (10_state.md R49 a, b). -/
theorem BlockInv.of_schedule {s : State} (hi : BlockInv s) (sv : Bool) (nr : BitVec 4) (w : List ByteWord)
    (hk : sv = true → ∃ key, ScheduleOf { s with sv := sv, nr := nr, sched := w } key) (h0 : sv = false → nr = 0) :
    BlockInv { s with sv := sv, nr := nr, sched := w } :=
  { hi with
    sv_nr := by
      refine ⟨h0, fun (hz : nr = 0) => ?_⟩
      by_contra hsv
      obtain ⟨key, hkey⟩ := hk (by simpa using hsv)
      rcases hkey.nr_legal with h | h | h <;> exact absurd (hz.symm.trans h) (by decide)
    nr_legal := fun hsv => (hk hsv).elim fun _ hkey => hkey.nr_legal
    sched_key := hk
    sched_length := fun hsv => (hk hsv).elim fun _ hkey => hkey.sched_length }

/-- A store of text within TEXT_BUF keeps the invariants (43_gcm_commands.md R210, R211). -/
theorem BlockInv.storeText {s : State} (hi : BlockInv s) (bs : List Byte) (h : bs.length ≤ Config.textMax) :
    BlockInv (storeText bs s) :=
  { hi with
    text_wf := storeList_wf bs _ 0 hi.text_wf
    text_size := storeList_size bs _ 0 _ hi.text_size (by omega) }

/-- Every command keeps the invariants. -/
theorem exec_keeps_blockInv (i : Instr) {s t : State} (hi : BlockInv s) (h : exec i s = .next t) : BlockInv t := by
  cases i with
  | expandKey =>
    obtain ⟨_, hk, h0⟩ := execExpandKey_schedule h
    rcases execExpandKey_cases s t h with ⟨_, rfl⟩ | ⟨_, rfl⟩
    · exact (hi.of_schedule true _ _ (fun hsv => ⟨_, hk hsv⟩) h0).complete .ok
    · exact (hi.of_schedule false 0 s.sched nofun h0).complete .invalidKeyLength
  | encryptBlock =>
    rcases execEncryptBlock_cases s t h with ⟨_, rfl⟩ | ⟨_, rfl⟩
    · exact { hi.complete .ok with }
    · exact hi.complete .keyNotReady
  | decryptBlock =>
    rcases execDecryptBlock_cases s t h with ⟨_, rfl⟩ | ⟨_, rfl⟩
    · exact { hi.complete .ok with }
    · exact hi.complete .keyNotReady
  | gcmSeal =>
    rcases execGcmSeal_cases s t h with ⟨_, hl, rfl⟩ | ⟨_, _, rfl⟩ | ⟨_, rfl⟩
    · have hlen : (sealed s).1.length ≤ Config.textMax := by
        simpa [sealed, Gcm.gcmAe] using ((lengthsLegal_iff s).mp hl).2
      exact { (hi.storeText _ hlen).complete .ok with }
    · exact hi.complete .length
    · exact hi.complete .keyNotReady
  | gcmOpen =>
    rcases execGcmOpen_cases s t h with ⟨p, _, hl, ho, rfl⟩ | ⟨_, _, _, rfl⟩ | ⟨_, _, rfl⟩ | ⟨_, rfl⟩
    · have hlen : p.length ≤ Config.textMax := (opened_length s p ho).trans_le ((lengthsLegal_iff s).mp hl).2
      exact (hi.storeText p hlen).complete .ok
    · exact hi.complete .authFail
    · exact hi.complete .length
    · exact hi.complete .keyNotReady

/-- A write of four bytes within a byte array keeps the invariants (20_memory.md R68). -/
theorem BlockInv.writeArray {s : State} (hi : BlockInv s) (r : ArrReg) (i : Nat) (w : ByteWord) (h : i + 4 ≤ r.size) :
    BlockInv (writeArray r i w s) := by
  cases r with
  | key | nonce | tag | bin | bout => exact { hi with }
  | aadBuf =>
    exact { hi with
      aad_wf := storeList_wf _ _ _ hi.aad_wf
      aad_size := storeList_size _ _ _ _ hi.aad_size h }
  | textBuf =>
    exact { hi with
      text_wf := storeList_wf _ _ _ hi.text_wf
      text_size := storeList_size _ _ _ _ hi.text_size h }

/-- A word at an aligned offset of a byte array lies within it whole (10_state.md R21, 20_memory.md R64). -/
theorem holds_word (r : ArrReg) (off : Nat) (h : r.holds off = true) (h4 : off % 4 = 0) :
    off - r.start + 4 ≤ r.size := by
  rw [holds_iff] at h
  cases r <;> simp only [ArrReg.start, ArrReg.size, Config.aadMax, Config.textMax] at h ⊢ <;> omega

/-- Every aligned write keeps the invariants (20_memory.md R68). -/
theorem BlockInv.memWrite {s : State} (hi : BlockInv s) (off : Nat) (v : Word) (h4 : off % 4 = 0) :
    BlockInv (memWrite off v s) := by
  rcases memWrite_cases off v s with ⟨_, e⟩ | ⟨_, e⟩ | ⟨_, _, _, e⟩ |
    ⟨_, ⟨_, e⟩ | ⟨_, e⟩ | ⟨_, e⟩ | ⟨_, e⟩ | ⟨r, _, hr, e⟩ | e⟩ <;> rw [e]
  · exact { hi with }
  · exact { hi with
      busy_clear := fun hb => (hi.busy_clear hb).imp_right fun hd => by rw [writeStatus_doneBit, hd, Bool.false_and] }
  · exact { hi with }
  · exact { hi with
      busy_clear := fun _ => ⟨rfl, rfl⟩
      err_le := Nat.zero_le 5 }
  · exact { hi with }
  · exact { hi with }
  · exact { hi with }
  · exact hi.writeArray r _ _ (holds_word r off (arrayAt_holds off r hr) h4)
  · exact hi

end Invariant

section StateObligations
/-! ## The obligations of 10_state.md -/

/-- Settles O54: nothing is cached, pending or written after power-on. -/
theorem invariantHoldsAtReset : Obligations.InvariantHoldsAtReset := blockInv_resetAt 0

/-- Settles O55, by the kinds of step: each has a lemma that it keeps the invariants. -/
theorem everyStepKeepsTheInvariant : Obligations.EveryStepKeepsTheInvariant := by
  intro s t hi h
  have hi' : BlockInv (tookTurn s) := hi.outside _ _ _
  rcases step_next s t h with ⟨_, rfl⟩ | ⟨_, _, rfl⟩ | ⟨i, _, e⟩ | ⟨_, _, rfl⟩ | ⟨_, n, e⟩ | ⟨off, v, ⟨_, tg, _, ho⟩, e⟩
  · exact (blockInv_resetAt _).outside _ _ _
  · exact hi'
  · exact exec_keeps_blockInv i hi' e
  · exact hi'.complete .illegalCmd
  · rw [e]; exact hi.outside _ _ _
  · obtain ⟨_, _, h4⟩ := legalOffset_ok tg off ho
    rw [e]; exact (hi'.memWrite off v h4).outside _ _ _

/-- Settles O56: the one step that changes the schedule and keeps SV = 1 is the one that changes the last key. -/
theorem scheduleIsOfTheLastExpandedKey : Obligations.ScheduleIsOfTheLastExpandedKey := by
  intro k s t hk h hsv
  by_cases hc : Completes s .expandKey
  · obtain ⟨hsv', hsched, _⟩ := execExpandKey_schedule ((step_of_completes hc).symm.trans h)
    exact ⟨keyOperand s, lastKeyAfter_of_completes k s hc (hsv'.symm.trans hsv), hsched hsv⟩
  · have hr : nextTurn s ≠ .reset := fun hr => by simp [step_of_reset h hr] at hsv
    have hsame := step_sameSchedule h hr hc
    obtain ⟨key, hkey, hof⟩ := hk (hsame.1.symm.trans hsv)
    exact ⟨key, by rw [lastKeyAfter_of_not_completes k s hc, hkey], hof.of_same hsame⟩

/-- Settles O14: no array and no register stands at a reserved offset, and the masks keep the implemented bits. -/
theorem reservedOffsetsAndBits : Obligations.ReservedOffsetsAndBits := by
  intro s off v h4
  refine ⟨fun (h : ReservedOffset off) => ?_, ?_, ?_, ?_, ?_⟩
  · have hw : off < 0x8000 := by unfold ReservedOffset at h; omega
    rw [busAccess_read_word off s hw h4, busAccess_write_word off v s hw h4, h.memRead_eq]
    exact ⟨rfl, fun hb => by rw [h.memWrite_eq v s hb]⟩
  · rw [memRead_of_not_output _ _ (by decide)]
    change flagWord s.ie &&& 0xFFFFFFFE = 0
    cases s.ie <;> rfl
  · rw [memRead_of_not_output _ _ (by decide)]
    exact statusWord_reserved s
  · simp [memWrite, writeCtrl]
  · simp [memWrite, writeStatus]

/-- Settles O18: the one array a read never shows is KEY. -/
theorem keyCannotBeReadBack : Obligations.KeyCannotBeReadBack := by
  intro s k tg
  simp only [busAccess]
  cases legalOffset tg with
  | error f => rfl
  | ok off =>
    simp only [memRead, readValue_key_irrelevant]
    split <;> rfl

/-- Settles O45: acceptance is the one write that reaches BUSY. -/
theorem busyChangesOnlyByAcceptanceCompletionReset : Obligations.BusyChangesOnlyByAcceptanceCompletionReset := by
  intro s t h
  refine ⟨step_busy_rises h, step_busy_falls h, fun _ v hw => ?_, fun hc => ?_, fun hr => ?_⟩
  · simp [step_write_busy h hw]
  · obtain ⟨_, hbusy, _⟩ := step_of_completing h hc
    exact hbusy
  · simp [step_of_reset h hr]

/-- Settles O46: of the writes, only an acceptance and the acknowledgement reach DONE, and both clear it. -/
theorem doneChangesOnlyByCompletionAcceptanceAck : Obligations.DoneChangesOnlyByCompletionAcceptanceAck := by
  intro s t h
  refine ⟨step_doneBit_rises h, fun hc => ?_, step_doneBit_falls h, fun v hw hb => ?_, fun v hw h1 => ?_⟩
  · obtain ⟨_, _, hdone, _⟩ := step_of_completing h hc
    exact hdone
  · rw [step_write_doneBit h hw, if_neg (by decide), if_pos ⟨rfl, hb⟩]
  · rw [step_write_doneBit h hw, if_pos rfl, h1, Bool.not_true, Bool.and_false]

/-- Settles O47: a dropped write is the one cause of OVR, and a completion does not reach it. -/
theorem ovrIsSticky : Obligations.OvrIsSticky := by
  intro s t h
  refine ⟨step_ovr_rises h, fun hb off v hw h0 h4 => ?_, step_ovr_falls h, fun v hw h2 => ?_, fun hr => ?_, fun hc => ?_⟩
  · simp [step_write_ovr h hw, hb, h0, h4]
  · rw [step_write_ovr h hw, if_pos rfl, h2, Bool.not_true, Bool.and_false]
  · simp [step_of_reset h hr]
  · obtain ⟨_, _, _, hovr⟩ := step_of_completing h hc
    exact hovr

/-- Settles O48: every other step leaves the schedule, and EXPAND_KEY leaves the schedule of its key. -/
theorem scheduleChangesOnlyByExpandKey : Obligations.ScheduleChangesOnlyByExpandKey := by
  intro s t h
  refine ⟨fun hne => ?_, fun hc => ?_, fun hr => ?_⟩
  · by_contra hno
    obtain ⟨hc, hr⟩ := not_or.mp hno
    exact hne (step_sameSchedule h hr hc)
  · obtain ⟨hsv, hsched, _⟩ := execExpandKey_schedule ((step_of_completes hc).symm.trans h)
    refine ⟨hsv, fun ht => ?_⟩
    obtain ⟨_, _, hw⟩ := hsched ht
    exact hw
  · simp [step_of_reset h hr]

/-- Settles O51: a change of IRQ is a change of IE or of DONE, and those have their own rules. -/
theorem interruptLevel : Obligations.InterruptLevel := by
  intro s
  refine ⟨rfl, fun t h => ⟨fun hs ht => ?_, fun hs ht => ?_, fun hc => ?_, fun v hw => ?_, fun v hw h1 => ?_,
    fun v hw hb => ?_, fun hr => ?_⟩⟩
  · obtain ⟨hie, hdone⟩ : t.ie = true ∧ t.doneBit = true := by simpa [irq] using ht
    cases hd : s.doneBit with
    | false =>
      have hc := step_doneBit_rises h hd hdone
      obtain ⟨hsame, _⟩ := step_of_completing h hc
      exact .inl ⟨hc, hsame.symm.trans hie⟩
    | true =>
      have hse : s.ie = false := by simpa [irq, hd] using hs
      rcases step_ie_changes h (by simp [hie, hse]) with ⟨v, hw, hv⟩ | hr
      · exact .inr ⟨v, hw, hv.symm.trans hie, rfl⟩
      · simp [step_of_reset h hr] at hie
  · obtain ⟨hse, hsd⟩ : s.ie = true ∧ s.doneBit = true := by simpa [irq] using hs
    cases hd : t.doneBit with
    | false =>
      rcases step_doneBit_falls h hsd hd with hacc | hack | hr
      · exact .inr (.inr (.inl hacc))
      · exact .inl hack
      · exact .inr (.inr (.inr hr))
    | true =>
      have hte : t.ie = false := by simpa [irq, hd] using ht
      rcases step_ie_changes h (by simp [hte, hse]) with ⟨v, hw, hv⟩ | hr
      · exact .inr (.inl ⟨v, hw, hv.symm.trans hte⟩)
      · exact .inr (.inr (.inr hr))
  · obtain ⟨hie, _, hdone, _⟩ := step_of_completing h hc
    simp [irq, hie, hdone]
  · simp [irq, step_write_ie h hw, step_write_doneBit h hw]
  · simp [irq, step_write_doneBit h hw, h1]
  · simp [irq, step_write_doneBit h hw, hb]
  · simp [irq, step_of_reset h hr]

/-- Settles O8: the fields from the bits of STATUS, the write from `writeStatus`. -/
theorem statusRegister : Obligations.StatusRegister := by
  intro s v
  refine ⟨?_, ?_, ?_, ?_, ?_, statusWord_err s, statusWord_nr s, statusWord_high s, rfl, ?_⟩
  · rw [busAccess_read_word _ s (by decide) rfl, memRead_of_not_output _ s (by decide)]; rfl
  · rw [statusWord_getLsbD]; simp
  · rw [statusWord_getLsbD]; simp
  · rw [statusWord_getLsbD]; simp
  · rw [statusWord_getLsbD]; simp
  · rw [busAccess_write_word _ v s (by decide) rfl, ← writeStatus_eq]; rfl

/-- Settles O9: CTRL is IE and nothing else, in both directions. -/
theorem controlRegister : Obligations.ControlRegister := by
  intro s v
  refine ⟨?_, ?_, rfl, ?_, ?_⟩
  · rw [busAccess_read_word _ s (by decide) rfl, memRead_of_not_output _ s (by decide)]; rfl
  · rw [busAccess_write_word _ v s (by decide) rfl]; rfl
  · simp [irq]
  · simp [irq]

/-- Settles O10: each length register is one field of the state. -/
theorem lengthRegisters : Obligations.LengthRegisters := by
  intro s v hb
  have hk : memWrite 0x000C v s = { s with keylen := v.extractLsb' 0 8 } := by simp [memWrite, hb]
  have ha : memWrite 0x0010 v s = { s with aadlen := v } := by simp [memWrite, hb]
  have ht : memWrite 0x0014 v s = { s with textlen := v } := by simp [memWrite, hb]
  refine ⟨hk, ?_, ha, ?_, ht, ?_⟩
  · rw [hk, memRead_of_not_output _ _ (by decide)]
    exact zeroExtend_low_byte v
  · rw [ha, memRead_of_not_output _ _ (by decide)]; rfl
  · rw [ht, memRead_of_not_output _ _ (by decide)]; rfl

/-- Settles O13: no read shows CMD or KEY, and no write reaches BOUT. -/
theorem writeOnlyAndReadOnlyRegisters : Obligations.WriteOnlyAndReadOnlyRegisters := by
  intro s off v h4
  refine ⟨?_, fun h hb => ?_⟩
  · rintro (rfl | h)
    · rw [busAccess_read_word _ s (by decide) rfl, memRead_of_not_output _ s (by decide)]; rfl
    · have hout := isOutput_of_holds .key off h (by decide) (by decide) (by decide)
      rw [busAccess_read_word off s (holds_range _ _ h).2 h4, memRead_of_not_output off s hout, readValue_at_key off s h]
  · rw [busAccess_write_word off v s (holds_range _ _ h).2 h4, memWrite_at_bout off v s hb h]

/-- Settles O17: a read moves at most the count of free values. -/
theorem readsHaveNoSideEffects : Obligations.ReadsHaveNoSideEffects := by
  intro s tg
  rcases busAccess_cases ⟨.read, tg⟩ s with ⟨f, e⟩ | ⟨off, _, _, e⟩ | ⟨_, _, _, hk, _⟩
  · exact ⟨s.busyReads, by rw [e], le_rfl, by omega, fun _ => rfl⟩
  · refine ⟨(memRead off s).2.busyReads, by rw [e]; exact memRead_state off s, ?_⟩
    rw [memRead_busyReads]
    split
    next h => exact ⟨by omega, by omega, fun hb => by simp [hb] at h⟩
    next => exact ⟨by omega, by omega, fun _ => rfl⟩
  · cases hk

/-- Settles O53: every field is its reset value, and nothing is written in the buffers. -/
theorem powerOnState : Obligations.PowerOnState :=
  ⟨rfl, rfl, rfl, rfl, rfl, rfl, rfl, rfl, rfl, rfl, fun r i ha ht _ => arrayByte_resetAt 0 r i ha ht,
    fun _ => rfl, fun _ => rfl, rfl⟩

end StateObligations

end Sys2Proof.Machine

/-! # The memory map and the bus: proofs of the statements of 20_memory.md. -/

namespace Sys2Proof

section Lanes
/-! ## The byte lanes of a word (20_memory.md R63) -/

/-- The bytes of a word's value on the bus, bits [31:24] first (20_memory.md R63). -/
theorem ByteWord.toWord_lanes (w : ByteWord) :
    w.toWord.extractLsb' 24 8 = w.byte 0 ∧ w.toWord.extractLsb' 16 8 = w.byte 1 ∧
      w.toWord.extractLsb' 8 8 = w.byte 2 ∧ w.toWord.extractLsb' 0 8 = w.byte 3 :=
  have h := ByteWord.ofWord_toWord w
  ⟨congrArg ByteWord.b0 h, congrArg ByteWord.b1 h, congrArg ByteWord.b2 h, congrArg ByteWord.b3 h⟩

/-- A word's bytes as a list and by index are the same. -/
theorem ByteWord.toList_getElem? (w : ByteWord) (i : Nat) (h : i < 4) : w.toList[i]? = some (w.byte i) := by
  interval_cases i <;> rfl

/-- The word WBYTES takes from index `k` on has the sequence's bytes there, 0x00 beyond its end (30_encoding.md R100). -/
theorem ByteWord.ofList_drop_byte (bs : List Byte) (k i : Nat) (h : i < 4) :
    (ByteWord.ofList (bs.drop k)).byte i = bs.getD (k + i) 0 := by
  interval_cases i <;> simp [ByteWord.ofList, ByteWord.byte]

end Lanes

section WordsOfRegisters
/-! ## Reading a word of a byte register after writing one -/

theorem Block.getWord_setWord (b : Block) (w : ByteWord) (i j : Nat) (hi : i < 4) (hj : j < 4) :
    (b.setWord w i).getWord j = if j = i then w else b.getWord j := by
  interval_cases i <;> interval_cases j <;> rfl

theorem NonceReg.getWord_setWord (n : NonceReg) (w : ByteWord) (i j : Nat) (hi : i < 3) (hj : j < 3) :
    (n.setWord w i).getWord j = if j = i then w else n.getWord j := by
  interval_cases i <;> interval_cases j <;> rfl

theorem KeyReg.getWord_setWord (k : KeyReg) (w : ByteWord) (i j : Nat) (hi : i < 8) (hj : j < 8) :
    (k.setWord w i).getWord j = if j = i then w else k.getWord j := by
  interval_cases i <;> interval_cases j <;> rfl

end WordsOfRegisters

end Sys2Proof

namespace Sys2Proof.Machine

open Sys2Proof

section Alignment
/-! ## The arrays in whole words (10_state.md R20, R21) -/

/-- The arrays start at aligned offsets (10_state.md R21). -/
theorem ArrReg.start_aligned (r : ArrReg) : r.start % 4 = 0 := by cases r <;> rfl

/-- So an aligned offset of an array is an aligned index in it. -/
theorem ArrReg.index_aligned (r : ArrReg) (off : Nat) (h4 : off % 4 = 0) : (off - r.start) % 4 = 0 := by
  have := r.start_aligned
  omega

/-- The sizes of the arrays are whole words (10_state.md R20). -/
theorem ArrReg.size_aligned (r : ArrReg) : r.size % 4 = 0 := by cases r <;> rfl

end Alignment

section ByteArrays
/-! ## The bytes of the arrays after a write (20_memory.md R68) -/

/-- What a buffer's byte is after a write of one word; `d` is the byte drawn for it. -/
theorem lookup_storeList_word (m : Memory) (a i : Nat) (w : ByteWord) (d : Byte) :
    (Memory.lookup (Memory.storeList m a w.toList) i).getD d =
      if a ≤ i ∧ i < a + 4 then w.byte (i - a) else (Memory.lookup m i).getD d := by
  rw [lookup_storeList, ByteWord.toList_length]
  split_ifs with h
  · rw [ByteWord.toList_getElem? w (i - a) (by omega), Option.getD_some]
  · rfl

/-- A write to one array leaves the words of every other. -/
theorem readArray_writeArray_ne (q r : ArrReg) (h : q ≠ r) (i j : Nat) (w : ByteWord) (s : State) :
    readArray q j (writeArray r i w s) = readArray q j s := by
  cases q <;> cases r <;> first | exact absurd rfl h | rfl

/-- The word at an aligned index after a write of a word of the same array. -/
theorem readArray_writeArray (r : ArrReg) (i j : Nat) (w : ByteWord) (s : State) (hi : 4 * i < r.size)
    (hj : 4 * j < r.size) :
    readArray r (4 * j) (writeArray r (4 * i) w s) = if j = i then w else readArray r (4 * j) s := by
  have hdiv (k : Nat) : 4 * k / 4 = k := by omega
  have hword (k : Nat) (h : 4 * k < r.size) : k < r.size / 4 := by have := r.size_aligned; omega
  cases r with
  | key =>
    simpa only [readArray, writeArray, hdiv] using KeyReg.getWord_setWord s.key w i j (hword i hi) (hword j hj)
  | nonce =>
    simpa only [readArray, writeArray, hdiv] using NonceReg.getWord_setWord s.nonce w i j (hword i hi) (hword j hj)
  | tag | bin | bout =>
    simpa only [readArray, writeArray, hdiv] using Block.getWord_setWord _ w i j (hword i hi) (hword j hj)
  | aadBuf | textBuf =>
    simp only [readArray, writeArray, aadByte, textByte, lookup_storeList_word]
    by_cases h : j = i
    · subst h; simp [ByteWord.byte]
    · rw [if_neg h, if_neg (by omega), if_neg (by omega), if_neg (by omega), if_neg (by omega)]

/-- Every byte of every array after a write of the word at an aligned index. -/
theorem arrayByte_writeArray (q r : ArrReg) (i j : Nat) (w : ByteWord) (s : State) (h4 : i % 4 = 0) (hi : i < r.size)
    (hj : j < q.size) :
    arrayByte q j (writeArray r i w s) =
      if q = r ∧ i ≤ j ∧ j < i + 4 then w.byte (j - i) else arrayByte q j s := by
  simp only [arrayByte]
  by_cases hq : q = r
  · subst hq
    obtain ⟨k, rfl⟩ : ∃ k, i = 4 * k := ⟨i / 4, by omega⟩
    rw [readArray_writeArray q k (j / 4) w s hi (by omega)]
    by_cases hk : j / 4 = k
    · rw [if_pos hk, if_pos ⟨rfl, by omega, by omega⟩, show j % 4 = j - 4 * k by omega]
    · rw [if_neg hk, if_neg (by omega)]
  · rw [readArray_writeArray_ne q r hq, if_neg (fun h => hq h.1)]

/-- The bytes of the word at an aligned index. -/
theorem arrayByte_of_word (r : ArrReg) (i k : Nat) (s : State) (h4 : i % 4 = 0) (hk : k < 4) :
    arrayByte r (i + k) s = (readArray r i s).byte k := by
  rw [arrayByte, show 4 * ((i + k) / 4) = i by omega, show (i + k) % 4 = k by omega]

/-- The Host's going on changes no byte of the block. -/
theorem arrayByte_advance (r : ArrReg) (i : Nat) (s : State) : arrayByte r i (advance s) = arrayByte r i s := by
  cases r <;> rfl

/-- A write to an array other than BOUT changes no register but the arrays the Host can write. -/
theorem writeArray_frame (r : ArrReg) (hr : r ≠ .bout) (i : Nat) (w : ByteWord) (s : State) :
    writeArray r i w s = { s with
      key := (writeArray r i w s).key, nonce := (writeArray r i w s).nonce, tag := (writeArray r i w s).tag
      bin := (writeArray r i w s).bin, aadBuf := (writeArray r i w s).aadBuf
      textBuf := (writeArray r i w s).textBuf } := by
  cases r with
  | bout => exact absurd rfl hr
  | key | nonce | tag | bin | aadBuf | textBuf => rfl

end ByteArrays

section ArrayAccess
/-! ## MemRead and MemWrite at an offset of a byte array (20_memory.md R67, R68) -/

/-- A read in an array other than KEY finds its word (20_memory.md R67). -/
theorem readValue_at_array (r : ArrReg) (off : Nat) (s : State) (h : r.holds off = true) (hr : r ≠ .key) :
    readValue off s = (readArray r (off - r.start) s).toWord := by
  have hne := array_offset_not_register r off h
  cases r with
  | key => exact absurd rfl hr
  | nonce | tag | bin | bout | aadBuf | textBuf => simp only [readValue, hne, if_false, arrayAt_of_holds off _ h]

/-- A write while BUSY = 0 in an array other than BOUT stores its word there (20_memory.md R68). -/
theorem memWrite_at_array (r : ArrReg) (off : Nat) (v : Word) (s : State) (hb : s.busy = false)
    (h : r.holds off = true) (hr : r ≠ .bout) :
    memWrite off v s = writeArray r (off - r.start) (ByteWord.ofWord v) s := by
  have hne := array_offset_not_register r off h
  cases r with
  | bout => exact absurd rfl hr
  | key | nonce | tag | bin | aadBuf | textBuf =>
    simp only [memWrite, hne, hb, if_false, arrayAt_of_holds off _ h, Bool.false_eq_true]

end ArrayAccess

section WriteFrame
/-! ## What a write outside TAG and TEXT_BUF leaves (20_memory.md R68, R78) -/

/-- A write changes TAG only at an offset of TAG, and TEXT_BUF only at one of TEXT_BUF. -/
theorem memWrite_tag_textBuf (off : Nat) (v : Word) (s : State) :
    (ArrReg.tag.holds off = false → (memWrite off v s).tag = s.tag) ∧
      (ArrReg.textBuf.holds off = false → (memWrite off v s).textBuf = s.textBuf) := by
  rcases memWrite_cases off v s with ⟨_, e⟩ | ⟨_, e⟩ | ⟨_, _, _, e⟩ |
    ⟨_, ⟨_, e⟩ | ⟨_, e⟩ | ⟨_, e⟩ | ⟨_, e⟩ | ⟨r, _, hr, e⟩ | e⟩ <;> rw [e] <;> try exact ⟨fun _ => rfl, fun _ => rfl⟩
  have hh := arrayAt_holds off r hr
  cases r with
  | tag => exact ⟨fun h => absurd hh (by simp [h]), fun _ => rfl⟩
  | textBuf => exact ⟨fun _ => rfl, fun h => absurd hh (by simp [h])⟩
  | key | nonce | bin | bout | aadBuf => exact ⟨fun _ => rfl, fun _ => rfl⟩

end WriteFrame

section Wbytes
/-! ## The run of a WBYTES (20_memory.md R82, 30_encoding.md R100) -/

/-- A word write to an array other than BOUT while BUSY = 0, as a statement of the Host. -/
theorem hostStmt_hostW_array (r : ArrReg) (i : Nat) (v : Word) (s : State) (hb : s.busy = false) (hr : r ≠ .bout)
    (h4 : i % 4 = 0) (hi : i < r.size) :
    hostStmt (hostW (r.start + i) v) s = .next (advance (writeArray r i (ByteWord.ofWord v) s)) := by
  have hh : r.holds (r.start + i) = true := (holds_iff r _).mpr (by omega)
  have hal : (r.start + i) % 4 = 0 := by have := r.start_aligned; omega
  have hacc : busAccess ⟨.write v, wordAtOffset (r.start + i)⟩ s =
      (.written, writeArray r i (ByteWord.ofWord v) s) := by
    rw [wordAtOffset, busAccess_write_word _ v s (holds_range r _ hh).2 hal, memWrite_at_array r _ v s hb hh hr,
      Nat.add_sub_cancel_left]
  simp only [hostW, hostStmt, hostAccess, hacc]

/-- The first `m` statements of a WBYTES store the first `4 m` bytes of the padded sequence and nothing else. -/
theorem runStmts_wbytes_words (r : ArrReg) (bs : List Byte) (hr : r ≠ .bout) (s : State) (hb : s.busy = false) (m : Nat)
    (hm : 4 * m ≤ r.size) :
    ∃ t, runStmts ((List.range m).map fun k =>
        hostW (r.start + 4 * k) (ByteWord.ofList (bs.drop (4 * k))).toWord) s = .next t ∧ t.busy = false ∧
      ∀ q i, i < q.size → arrayByte q i t = if q = r ∧ i < 4 * m then bs.getD i 0 else arrayByte q i s := by
  induction m with
  | zero => exact ⟨s, rfl, hb, fun q i _ => by simp⟩
  | succ m ih =>
    obtain ⟨t, hrun, htb, hbytes⟩ := ih (by omega)
    have hlt : 4 * m < r.size := by omega
    refine ⟨advance (writeArray r (4 * m) (ByteWord.ofList (bs.drop (4 * m))) t), ?_, ?_, fun q i hi => ?_⟩
    · rw [List.range_succ, List.map_append, runStmts_append _ _ s t hrun]
      simp only [List.map_cons, List.map_nil, runStmts, ByteWord.ofWord_toWord,
        hostStmt_hostW_array r (4 * m) _ t htb hr (by omega) hlt]
    · rw [advance_busy, writeArray_frame r hr]; exact htb
    · rw [arrayByte_advance, arrayByte_writeArray q r (4 * m) i _ t (by omega) hlt hi, hbytes q i hi]
      by_cases hq : q = r
      · by_cases hlow : i < 4 * m
        · rw [if_neg (by omega), if_pos ⟨hq, hlow⟩, if_pos ⟨hq, by omega⟩]
        by_cases hhere : i < 4 * m + 4
        · rw [if_pos ⟨hq, by omega, hhere⟩, if_pos ⟨hq, by omega⟩, ByteWord.ofList_drop_byte _ _ _ (by omega),
            show 4 * m + (i - 4 * m) = i by omega]
        · rw [if_neg (by omega), if_neg (by omega), if_neg (by omega)]
      · simp [hq]

end Wbytes

section HostFaults
/-! ## The faults of a well-formed Host program (30_encoding.md R99) -/

/-- The Engine's turn raises no fault (60_exceptions.md R236). -/
theorem engineTurn_no_fault (s : State) (f : Fault) : engineTurn s ≠ .fault f := by
  rcases engineTurn_cases s with ⟨_, e⟩ | ⟨_, i, _, e⟩ | ⟨_, _, _, e⟩ <;> rw [e]
  · nofun
  · obtain ⟨r, hr⟩ := exec_eq i s
    rw [hr]; nofun
  · nofun

/-- A well-formed target is a legal one (20_memory.md R62, R64). -/
theorem legalOffset_of_wellFormed (t : Target) (h : targetWellFormed t = true) : ∃ off, legalOffset t = .ok off := by
  obtain ⟨addr, n⟩ := t
  cases addr with
  | bus a => exact absurd h (by simp [targetWellFormed])
  | offset off =>
    obtain ⟨⟨hw, rfl⟩, h4⟩ : (off < Config.windowSize ∧ n = 4) ∧ off % 4 = 0 := by
      simpa [targetWellFormed] using h
    exact ⟨off, legalOffset_word off hw h4⟩

/-- A Host access to a well-formed target raises no fault. -/
theorem hostAccess_no_fault (a : Access) (x : Option Var) (s : State) (f : Fault)
    (h : targetWellFormed a.target = true) : hostAccess a x s ≠ .fault f := by
  obtain ⟨off, ho⟩ := legalOffset_of_wellFormed a.target h
  obtain ⟨k, tg⟩ := a
  cases k with
  | read => cases x <;> simp only [hostAccess, busAccess, ho] <;> nofun
  | write v => simp only [hostAccess, busAccess, ho]; nofun

/-- A label of the program is found in it. -/
theorem findLabel_isSome (prog : List Stmt) (l : Nat) (h : prog.contains (.label l) = true) :
    findLabel prog l ≠ none := by
  intro hn
  have hno := List.findIdx?_eq_none_iff.mp hn (.label l) (by simpa using h)
  simp at hno

/-- The one fault a well-formed statement can raise is a variable that no read has given a value (log 9). -/
theorem hostStmt_fault_of_wellFormed (st : Stmt) (s : State) (f : Fault) (hw : stmtWellFormed s.host.prog st = true)
    (h : hostStmt st s = .fault f) : f = .unsetVariable := by
  cases st with
  | write t v => exact absurd h (hostAccess_no_fault ⟨.write v, t⟩ none s f hw)
  | read t => exact absurd h (hostAccess_no_fault ⟨.read, t⟩ none s f hw)
  | readTo t x => exact absurd h (hostAccess_no_fault ⟨.read, t⟩ (some x) s f hw)
  | expect x v => cases h
  | bindBytes name n =>
    simp only [hostStmt] at h
    split at h <;> cases h
    rfl
  | expectBytes name bs => cases h
  | label l => cases h
  | ifGoto x b l =>
    obtain ⟨_, hl⟩ : b < 32 ∧ s.host.prog.contains (.label l) = true := by
      simpa only [stmtWellFormed, Bool.and_eq_true, decide_eq_true_eq] using hw
    simp only [hostStmt] at h
    split at h
    · cases h; rfl
    · split at h
      · split at h
        next hn => exact absurd hn (findLabel_isSome _ l hl)
        next => cases h
      · cases h

/-- So no step of a machine whose Host program is well formed ends in another fault. -/
theorem step_fault_of_wellFormed (s : State) (f : Fault) (hw : programWellFormed s.host.prog = true)
    (h : step s = .fault f) : f = .unsetVariable := by
  rw [step_eq] at h
  cases hn : nextTurn s with
  | reset => rw [hn] at h; cases h
  | engine => rw [hn] at h; exact absurd h (engineTurn_no_fault _ f)
  | host =>
    rw [hn] at h
    change hostTurn (tookTurn s) = .fault f at h
    unfold hostTurn at h
    split at h
    next st hst =>
      have hst' : stmtWellFormed s.host.prog st = true := List.all_eq_true.mp hw st (List.mem_of_getElem? hst)
      exact hostStmt_fault_of_wellFormed st (tookTurn s) f hst' h
    next => cases h

end HostFaults

section MemoryObligations
/-! ## The obligations of 20_memory.md -/

/-- Settles O11: MemWrite at an array is one aligned word write of that array. -/
theorem arrayWriteStoresItsFourBytes : Obligations.ArrayWriteStoresItsFourBytes := by
  intro s r off v hb hr hh h4
  have hal := r.index_aligned off h4
  have hroom := holds_word r off hh h4
  have hget (k : Nat) (hk : k < 4) : arrayByte r (off - r.start + k)
      (writeArray r (off - r.start) (ByteWord.ofWord v) s) = (ByteWord.ofWord v).byte k := by
    rw [arrayByte_writeArray r r _ _ _ s hal (by omega) (by omega), if_pos ⟨rfl, by omega, by omega⟩,
      Nat.add_sub_cancel_left]
  refine ⟨writeArray r (off - r.start) (ByteWord.ofWord v) s, ?_, hget 0 (by omega), hget 1 (by omega),
    hget 2 (by omega), hget 3 (by omega), fun q i hi hne => ?_, writeArray_frame r hr _ _ s⟩
  · rw [busAccess_write_word off v s (holds_range r off hh).2 h4, memWrite_at_array r off v s hb hh hr]
  · rw [arrayByte_writeArray q r _ i _ s hal (by omega) hi, if_neg hne]

/-- Settles O12: MemRead at an array is the aligned word there, and its lanes are the word's bytes. -/
theorem arrayReadReturnsItsFourBytes : Obligations.ArrayReadReturnsItsFourBytes := by
  intro s r off hb hr hh h4
  have hal := r.index_aligned off h4
  obtain ⟨l0, l1, l2, l3⟩ := ByteWord.toWord_lanes (readArray r (off - r.start) s)
  refine ⟨(readArray r (off - r.start) s).toWord, ?_, ?_, ?_, ?_, ?_⟩
  · rw [busAccess_read_word off s (holds_range r off hh).2 h4, ← readValue_at_array r off s hh hr]
    simp [memRead, hb]
  · exact l0.trans (arrayByte_of_word r _ 0 s hal (by omega)).symm
  · exact l1.trans (arrayByte_of_word r _ 1 s hal (by omega)).symm
  · exact l2.trans (arrayByte_of_word r _ 2 s hal (by omega)).symm
  · exact l3.trans (arrayByte_of_word r _ 3 s hal (by omega)).symm

/-- Settles O49: while idle only a Host write reaches the block, and each output has its one range of offsets. -/
theorem outputsStayWhileIdle : Obligations.OutputsStayWhileIdle := by
  intro s t hb hr h
  have hidle : ¬ Completing s := fun ⟨_, hb'⟩ => by simp [hb] at hb'
  refine and_left_comm.mp ⟨step_sameSchedule h hr fun ⟨hn, hb', _⟩ => hidle ⟨hn, hb'⟩, ?_⟩
  rcases step_next s t h with ⟨hr', _⟩ | ⟨_, _, rfl⟩ | ⟨i, ⟨hn, hb', _⟩, _⟩ | ⟨hc, _⟩ | ⟨_, n, e⟩ | ⟨off, v, hw, e⟩
  · exact absurd hr' hr
  · exact ⟨rfl, fun _ => rfl, fun _ _ => rfl, fun _ => rfl⟩
  · exact absurd ⟨hn, hb'⟩ hidle
  · exact absurd hc hidle
  · rw [e]; exact ⟨rfl, fun _ => rfl, fun _ _ => rfl, fun _ => rfl⟩
  · rw [e]
    obtain ⟨htag, htext⟩ := memWrite_tag_textBuf off v (tookTurn s)
    refine ⟨memWrite_bout off v _, fun hno => htag (hno off v hw), fun hno i => ?_, fun hno => ?_⟩
    · simp only [textByte, memWrite_epoch, htext (hno off v hw)]
    · have hoff : off ≠ 0x0008 := fun h8 => hno v (h8 ▸ hw)
      simp [memWrite_err, hoff]

/-- Settles O59: the run stores every word of the padded sequence, and its bytes past the end are 0x00. -/
theorem wbytesStoresTheSequence : Obligations.WbytesStoresTheSequence := by
  intro s r bs hb hr hlen
  have hfit : 4 * ((bs.length + 3) / 4) ≤ r.size := by have := r.size_aligned; omega
  obtain ⟨t, hrun, htb, hbytes⟩ := runStmts_wbytes_words r bs hr s hb ((bs.length + 3) / 4) hfit
  refine ⟨t, hrun, fun i hi => ?_, fun q i hq hi => ?_, htb⟩
  · rw [hbytes r i hi]
    by_cases hin : i < bs.length
    · rw [if_pos ⟨rfl, by omega⟩, if_pos hin]
    · simp [hin]
  · rw [hbytes q i hi, if_neg fun h => hq h.1]

/-- Settles O60: the one fault left to a well-formed Host program is a variable without a value. -/
theorem wellFormedProgramsMeetNoBusError : Obligations.WellFormedProgramsMeetNoBusError := by
  intro s hw
  refine ⟨fun h => ?_, fun h => ?_, fun h => ?_⟩ <;> exact absurd (step_fault_of_wellFormed s _ hw h) nofun

/-- Settles O15: such an access has no legal offset, so it never reaches MemRead or MemWrite. -/
theorem illegalAccessGetsBusError : Obligations.IllegalAccessGetsBusError := by
  intro s k x off n h hn
  have hacc : busAccess ⟨k, ⟨.offset off, n⟩⟩ s = (.error .busError, s) := by
    simp only [busAccess, legalOffset_illegal off n h hn]
  exact ⟨hacc, by simp only [hostAccess, hacc]⟩

/-- Settles O16: both forms of an address name the same offset of the window, or none. -/
theorem windowStandsAtBase : Obligations.WindowStandsAtBase := by
  refine ⟨by rw [Config.base, windowSize_eq, Nat.mul_mod_left], fun s k n => ⟨fun off h => ?_, fun a h => ?_⟩⟩
  · simp only [busAccess, legalOffset, windowOffset_bus off h, windowOffset_offset off h]
  · simp only [busAccess, legalOffset, windowOffset_bus_outside a h]

end MemoryObligations

end Sys2Proof.Machine

/-! # Command words and host programs: proofs of the statements of 30_encoding.md. -/

namespace Sys2Proof

section CommandWords
/-! ## The fields of a command word and what it decodes to (30_encoding.md R91, R92, R97) -/

theorem opField_toNat (p : Word) : (opField p).toNat = p.toNat % 16 := by
  simp [opField]

theorem mbzField_toNat (p : Word) : (mbzField p).toNat = p.toNat / 16 := by
  have := p.isLt
  simp only [mbzField, BitVec.extractLsb'_toNat, Nat.shiftRight_eq_div_pow]
  omega

/-- A word is its two fields (30_encoding.md R91). -/
theorem word_eq_of_fields {p q : Word} (hm : mbzField p = mbzField q) (ho : opField p = opField q) : p = q := by
  have hm' : p.toNat / 16 = q.toNat / 16 := by simpa only [mbzField_toNat] using congrArg BitVec.toNat hm
  have ho' : p.toNat % 16 = q.toNat % 16 := by simpa only [opField_toNat] using congrArg BitVec.toNat ho
  exact BitVec.eq_of_toNat_eq (by omega)

/-- An illegal word: bits [31:4] are not zero, or OP is 0 or at least 6 (30_encoding.md R97). -/
def IllegalWord (p : Word) : Prop := mbzField p ≠ 0 ∨ opField p = 0 ∨ 6 ≤ (opField p).toNat

@[simp] theorem decode_encode (i : Instr) : decode (encode i) = .ok i := by
  cases i <;> rfl

theorem not_illegalWord_encode (i : Instr) : ¬ IllegalWord (encode i) := by
  unfold IllegalWord
  cases i <;> decide

/-- A word that decodes to a command has that command's fields (30_encoding.md R92). -/
theorem fields_of_decode {p : Word} {i : Instr} (h : decode p = .ok i) :
    mbzField p = mbzField (encode i) ∧ opField p = opField (encode i) := by
  unfold decode at h
  split_ifs at h with hm h1 h2 h3 h4 h5 <;> cases h <;> exact ⟨not_not.mp hm, by assumption⟩

/-- Each command has exactly its one word (30_encoding.md R92). -/
theorem decode_eq_ok_iff (p : Word) (i : Instr) : decode p = .ok i ↔ p = encode i := by
  refine ⟨fun h => ?_, fun h => h ▸ decode_encode i⟩
  obtain ⟨hm, ho⟩ := fields_of_decode h
  exact word_eq_of_fields hm ho

/-- Decoding fails on the illegal words and on no other (30_encoding.md R97). -/
theorem decode_eq_error_iff (p : Word) : (∃ e, decode p = .error e) ↔ IllegalWord p := by
  constructor
  · rintro ⟨e, h⟩
    unfold decode at h
    split_ifs at h with hm h1 h2 h3 h4 h5
    · exact .inl hm
    · exact .inr (by bv_omega)
  · intro hp
    cases hd : decode p with
    | error e => exact ⟨e, rfl⟩
    | ok i => exact absurd ((decode_eq_ok_iff p i).mp hd ▸ hp) (not_illegalWord_encode i)

end CommandWords

end Sys2Proof

namespace Sys2Proof.Machine

open Sys2Proof

section Acceptance
/-! ## Writing a command word and completing it (30_encoding.md R93, R97) -/

/-- A write to CMD while BUSY = 0 is an acceptance, whatever the word (30_encoding.md R93). -/
theorem memWrite_cmd_idle (v : Word) (s : State) (hb : s.busy = false) : memWrite 0x0008 v s = accept v s := by
  simp [memWrite, hb]

/-- A write to CMD while BUSY = 1 is dropped and sets OVR (70_reset_and_hazards.md R276). -/
theorem memWrite_cmd_busy (v : Word) (s : State) (hb : s.busy = true) : memWrite 0x0008 v s = { s with ovr := true } := by
  simp [memWrite, hb]

/-- A pending illegal word completes with code 1 (30_encoding.md R97). -/
theorem engineTurn_illegal (s : State) (hb : s.busy = true) (hp : IllegalWord s.pend) :
    engineTurn s = .next (complete .illegalCmd s) := by
  obtain ⟨e, he⟩ := (decode_eq_error_iff s.pend).mpr hp
  rcases engineTurn_cases s with ⟨hb', _⟩ | ⟨_, i, hd, _⟩ | ⟨_, _, _, h⟩
  · exact absurd hb (by simp [hb'])
  · cases he.symm.trans hd
  · exact h

/-- A placed command word stands accepted, with an Engine turn before all others (30_encoding.md R93; log 12). -/
theorem withFetchWord_encode (s : State) (i : Instr) :
    s.withFetchWord 32 (encode i).toNat = { accept (encode i) s with turns := .engine :: s.turns } := by
  cases i <;> rfl

end Acceptance

section HostStatements
/-! ## What each statement of the Host does (30_encoding.md R99) -/

/-- `W` at a legal offset. -/
theorem hostStmt_write (off : Nat) (v : Word) (s : State) (h : off < 0x8000) (h4 : off % 4 = 0) :
    hostStmt (.write ⟨.offset off, 4⟩ v) s = .next (advance (memWrite off v s)) := by
  simp only [hostStmt, hostAccess, busAccess_write_word off v s h h4]

/-- `R` at a legal offset. -/
theorem hostStmt_read (off : Nat) (s : State) (h : off < 0x8000) (h4 : off % 4 = 0) :
    hostStmt (.read ⟨.offset off, 4⟩) s = .next (advance (memRead off s).2) := by
  simp only [hostStmt, hostAccess, busAccess_read_word off s h h4]

/-- `R` into a variable at a legal offset. -/
theorem hostStmt_readTo (off : Nat) (x : Var) (s : State) (h : off < 0x8000) (h4 : off % 4 = 0) :
    hostStmt (.readTo ⟨.offset off, 4⟩ x) s = .next (advance (setVar x (memRead off s).1 (memRead off s).2)) := by
  simp only [hostStmt, hostAccess, busAccess_read_word off s h h4]

/-- The first label of a name is the one a jump finds (log 9). -/
theorem findLabel_eq_some (prog : List Stmt) (l p : Nat) (hp : prog[p]? = some (.label l))
    (hfirst : ∀ q, q < p → prog[q]? ≠ some (.label l)) : findLabel prog l = some p := by
  obtain ⟨hlt, hp⟩ := List.getElem?_eq_some_iff.mp hp
  refine List.findIdx?_eq_some_iff_getElem.mpr ⟨hlt, by simp [hp], fun q hq hl => hfirst q hq ?_⟩
  exact List.getElem?_eq_some_iff.mpr ⟨by omega, by simpa using hl⟩

/-- An `IF` whose bit is 0 goes on. -/
theorem hostStmt_ifGoto_zero (x : Var) (b l : Nat) (w : Word) (s : State) (hx : getVar s x = some w)
    (hw : w.getLsbD b = false) : hostStmt (.ifGoto x b l) s = .next (advance s) := by
  simp [hostStmt, hx, hw]

/-- An `IF` whose bit is 1 goes to the first label of its name (log 9). -/
theorem hostStmt_ifGoto_one (x : Var) (b l p : Nat) (w : Word) (s : State) (hx : getVar s x = some w)
    (hw : w.getLsbD b = true) (hp : s.host.prog[p]? = some (.label l))
    (hfirst : ∀ q, q < p → s.host.prog[q]? ≠ some (.label l)) : hostStmt (.ifGoto x b l) s = .next (goTo p s) := by
  simp [hostStmt, hx, hw, findLabel_eq_some _ l p hp hfirst]

/-- A read gives no value to a Host variable. -/
theorem getVar_memRead (off : Nat) (s : State) (x : Var) : getVar (memRead off s).2 x = getVar s x := by
  rw [memRead_state]; rfl

end HostStatements

section Rbytes
/-! ## The run of an RBYTES (30_encoding.md R100) -/

/-- Every read while BUSY = 0 is exact and changes nothing (70_reset_and_hazards.md R277). -/
theorem memRead_idle (off : Nat) (s : State) (hb : s.busy = false) : memRead off s = (readValue off s, s) := by
  simp [memRead, hb]

/-- The arrays do not depend on the Host. -/
theorem readArray_host (r : ArrReg) (i : Nat) (a : HostAgent) (s : State) :
    readArray r i { s with host := a } = readArray r i s := by
  cases r <;> rfl

/-- The value of word `k` of an array, which is its bytes `4 k` to `4 k + 3`. -/
abbrev arrayWord (r : ArrReg) (s : State) (k : Nat) : Word := (readArray r (4 * k) s).toWord

/-- One read of an RBYTES while BUSY = 0: the word goes to its variable. -/
theorem hostStmt_hostR_array (r : ArrReg) (k : Nat) (x : Var) (s : State) (hb : s.busy = false) (hr : r ≠ .key)
    (hk : 4 * k < r.size) :
    hostStmt (hostR (r.start + 4 * k) x) s = .next (advance (setVar x (arrayWord r s k) s)) := by
  have hh : r.holds (r.start + 4 * k) = true := (holds_iff r _).mpr (by omega)
  have hal : (r.start + 4 * k) % 4 = 0 := by have := r.start_aligned; omega
  rw [hostR, wordAtOffset, hostStmt_readTo _ x s (holds_range r _ hh).2 hal, memRead_idle _ s hb,
    readValue_at_array r _ s hh hr, Nat.add_sub_cancel_left]

/-- The first `m` reads of an RBYTES give its variables the first `m` words of the array, and change only the Host's
word variables and its position. -/
theorem runStmts_rbytes_words (r : ArrReg) (hr : r ≠ .key) (name : Nat) (s : State) (hb : s.busy = false) (m : Nat)
    (hm : 4 * m ≤ r.size) :
    ∃ t, runStmts ((List.range m).map fun k => hostR (r.start + 4 * k) (.part name k)) s = .next t ∧
      t = { s with host := t.host } ∧ t.host.byteVars = s.host.byteVars ∧
      ∀ k, k < m → getVar t (.part name k) = some (arrayWord r s k) := by
  induction m with
  | zero => exact ⟨s, rfl, rfl, rfl, nofun⟩
  | succ m ih =>
    obtain ⟨t, hrun, hts, hbv, hvars⟩ := ih (by omega)
    have hword : arrayWord r t m = arrayWord r s m := by rw [arrayWord, hts, readArray_host]
    have htb : t.busy = false := by rw [hts]; exact hb
    refine ⟨advance (setVar (.part name m) (arrayWord r t m) t), ?_, ?_, hbv, fun k hk => ?_⟩
    · rw [List.range_succ, List.map_append, runStmts_append _ _ s t hrun]
      simp only [List.map_cons, List.map_nil, runStmts, hostStmt_hostR_array r m _ t htb hr (by omega)]
    · rw [hts]; rfl
    · rw [getVar_advance]
      by_cases hkm : k = m
      · rw [hkm, getVar_setVar_same, hword]
      · rw [getVar_setVar_ne _ _ _ _ (by simpa using hkm)]
        exact hvars k (by omega)

/-- The bytes of the word at an aligned index of an array. -/
theorem readArray_toList (r : ArrReg) (i : Nat) (s : State) (h4 : i % 4 = 0) :
    (readArray r i s).toList = (List.range 4).map fun j => arrayByte r (i + j) s := by
  have hbyte (j : Nat) (hj : j < 4) : arrayByte r (i + j) s = (readArray r i s).byte j :=
    arrayByte_of_word r i j s h4 hj
  rw [List.map_congr_left fun j hj => hbyte j (List.mem_range.mp hj)]
  rfl

/-- The first `m` words of an array are its first `4 m` bytes. -/
theorem flatMap_arrayWord (r : ArrReg) (s : State) (m : Nat) :
    ((List.range m).map (arrayWord r s)).flatMap (fun v => (ByteWord.ofWord v).toList) =
      (List.range (4 * m)).map fun i => arrayByte r i s := by
  induction m with
  | zero => rfl
  | succ m ih =>
    rw [List.range_succ, List.map_append, List.flatMap_append, ih, Nat.mul_succ, List.range_add, List.map_append]
    simp [readArray_toList, Function.comp_def]

/-- A map that gives a value for every element of a list gives the list of the values. -/
theorem mapM_eq_some {α β : Type} (f : α → Option β) (g : α → β) (xs : List α) (h : ∀ x ∈ xs, f x = some (g x)) :
    xs.mapM f = some (xs.map g) := by
  induction xs with
  | nil => rfl
  | cons x xs ih =>
    obtain ⟨hx, hxs⟩ := List.forall_mem_cons.mp h
    simp [List.mapM_cons, hx, ih hxs]

/-- The words of an RBYTES hold exactly the bytes it asks for. -/
theorem partBytes_eq (r : ArrReg) (s t : State) (name n : Nat)
    (h : ∀ k, k < (n + 3) / 4 → getVar t (.part name k) = some (arrayWord r s k)) :
    partBytes t name n = some ((List.range n).map fun i => arrayByte r i s) := by
  rw [partBytes, mapM_eq_some _ (arrayWord r s) _ fun k hk => h k (List.mem_range.mp hk), Option.map_some,
    flatMap_arrayWord, ← List.map_take, List.take_range, Nat.min_eq_left (by omega)]

/-- RBYTES binds its variable to the first `n` bytes of the array, and changes only the Host. -/
theorem runStmts_rbytes (r : ArrReg) (hr : r ≠ .key) (name n : Nat) (s : State) (hb : s.busy = false)
    (hn : n ≤ r.size) :
    ∃ t, runStmts (hostRbytes r.start n name) s = .next t ∧
      getBytes t name = some ((List.range n).map (fun i => arrayByte r i s)) ∧
      (∀ m, m ≠ name → getBytes t m = getBytes s m) ∧ t = { s with host := t.host } := by
  have hfit : 4 * ((n + 3) / 4) ≤ r.size := by have := r.size_aligned; omega
  obtain ⟨t, hrun, hts, hbv, hvars⟩ := runStmts_rbytes_words r hr name s hb ((n + 3) / 4) hfit
  refine ⟨advance (setBytes name ((List.range n).map fun i => arrayByte r i s) t), ?_, ?_, fun m hm => ?_, ?_⟩
  · rw [hostRbytes, runStmts_append _ _ s t hrun]
    simp only [runStmts, hostStmt, partBytes_eq r s t name n hvars]
  · rw [getBytes_advance, getBytes_setBytes_same]
  · rw [getBytes_advance, getBytes_setBytes_ne _ _ _ _ hm, getBytes, hbv, getBytes]
  · rw [hts]; rfl

end Rbytes

section Transactions
/-! ## What the block sees of a Host statement (30_encoding.md R99) -/

/-- A Host access that goes on changes the block as the bus access does. -/
theorem hostAccess_next_block (a : Access) (x : Option Var) (s t : State) (h : hostAccess a x s = .next t) :
    t = { (busAccess a s).2 with host := t.host } := by
  unfold hostAccess at h
  rcases busAccess_cases a s with ⟨f, e⟩ | ⟨off, _, _, e⟩ | ⟨off, v, _, _, e⟩ <;> rw [e] at h ⊢
  · cases h
  · cases x <;> cases h <;> rfl
  · cases h; rfl

/-- A statement that issues a transaction is that access of the Host, into a variable or none. -/
theorem hostStmt_of_access (st : Stmt) (a : Access) (s : State) (ha : st.access = some a) :
    ∃ x, hostStmt st s = hostAccess a x s := by
  cases st with
  | write tg v | read tg => cases ha; exact ⟨none, rfl⟩
  | readTo tg x => cases ha; exact ⟨some x, rfl⟩
  | expect x v | bindBytes name n | expectBytes name bs | label l | ifGoto x b l => cases ha

/-- A statement that issues a transaction changes the block as that transaction does. -/
theorem hostStmt_next_of_access (st : Stmt) (a : Access) (s t : State) (ha : st.access = some a)
    (h : hostStmt st s = .next t) : t = { (busAccess a s).2 with host := t.host } := by
  obtain ⟨x, e⟩ := hostStmt_of_access st a s ha
  exact hostAccess_next_block a x s t (e.symm.trans h)

/-- A statement that issues none changes nothing of the block. -/
theorem hostStmt_next_of_no_access (st : Stmt) (s t : State) (ha : st.access = none) (h : hostStmt st s = .next t) :
    t = { s with host := t.host } := by
  rcases hostStmt_next st s t h with e | ⟨off, tg, ha', _⟩ | ⟨off, tg, v, rfl, _⟩
  · exact e
  · cases ha.symm.trans ha'
  · cases ha

/-- A Host turn takes the next statement, if there is one, with that turn off the list. -/
theorem step_of_host {s : State} (hn : nextTurn s = .host) : step s = hostTurn (tookTurn s) := by
  rw [step_eq, hn]; rfl

theorem hostTurn_of_stmt {s : State} {st : Stmt} (h : nextStmt s = some st) : hostTurn s = hostStmt st s := by
  simp only [hostTurn, h]

theorem hostTurn_of_ended {s : State} (h : nextStmt s = none) : hostTurn s = .next s := by
  simp only [hostTurn, h]

/-- A Host turn issues the transaction of the next statement. -/
theorem nextAccess_of_host {s : State} (hn : nextTurn s = .host) : nextAccess s = (nextStmt s).bind Stmt.access := by
  simp only [nextAccess, hn]

/-- The next turn is the first one listed. -/
theorem nextTurn_of_turns {s : State} {tn : Turn} {ts : List Turn} (h : s.turns = tn :: ts) : nextTurn s = tn := by
  simp [nextTurn, h]

/-- A step whose turn is listed as the Host's is the Host's next statement. -/
theorem step_of_stmt {s : State} {ts : List Turn} {st : Stmt} (ht : s.turns = .host :: ts)
    (hst : nextStmt s = some st) : step s = hostStmt st { s with turns := ts } := by
  have htail : tookTurn s = { s with turns := ts } := by rw [tookTurn, ht]; rfl
  rw [step_of_host (nextTurn_of_turns ht), htail]
  exact hostTurn_of_stmt hst

/-- The encoding of a run whose first step is a statement of the Host that goes on. -/
theorem encodeProgram_of_stmt {s t : State} {ts : List Turn} {st : Stmt} (n : Nat) (ht : s.turns = .host :: ts)
    (hst : nextStmt s = some st) (h : hostStmt st { s with turns := ts } = .next t) :
    encodeProgram (n + 1) s = st.access.toList ++ encodeProgram n t := by
  rw [encodeProgram_succ n s t ((step_of_stmt ht hst).trans h), nextAccess_of_host (nextTurn_of_turns ht), hst,
    Option.bind_some]

end Transactions

section StraightPrograms
/-! ## The encoding of a program without jumps (30_encoding.md R99) -/

/-- Where the Host is after a statement that is no jump: at the next statement of the same program, with the same turns. -/
def GoesOn (s t : State) : Prop :=
  t.host.prog = s.host.prog ∧ t.host.pos = s.host.pos + 1 ∧ t.turns = s.turns

theorem hostAccess_goesOn (a : Access) (x : Option Var) (s t : State) (h : hostAccess a x s = .next t) :
    GoesOn s t := by
  unfold hostAccess at h
  rcases busAccess_cases a s with ⟨f, e⟩ | ⟨off, _, _, e⟩ | ⟨off, v, _, _, e⟩ <;> rw [e] at h
  · cases h
  · rw [memRead_state] at h
    cases x <;> cases h <;> exact ⟨rfl, rfl, rfl⟩
  · cases h
    simp [GoesOn]

theorem hostStmt_goesOn (st : Stmt) (s t : State) (hj : ∀ x b l, st ≠ .ifGoto x b l) (h : hostStmt st s = .next t) :
    GoesOn s t := by
  cases st with
  | write tg v | read tg => exact hostAccess_goesOn _ none s t h
  | readTo tg x => exact hostAccess_goesOn _ (some x) s t h
  | expect x v | expectBytes name bs | label l => cases h; exact ⟨rfl, rfl, rfl⟩
  | bindBytes name n =>
    simp only [hostStmt] at h
    split at h <;> cases h
    exact ⟨rfl, rfl, rfl⟩
  | ifGoto x b l => exact absurd rfl (hj x b l)

/-- From any position of a program without jumps, the run of the statements left issues their transactions in order. -/
theorem encodeProgram_straight (n : Nat) (s v : State) (ht : s.turns = List.replicate n .host)
    (hlen : s.host.prog.length = s.host.pos + n) (hj : ∀ st ∈ s.host.prog, ∀ x b l, st ≠ .ifGoto x b l)
    (hrun : Sys2Proof.core.run n s = .next v) :
    encodeProgram n s = (s.host.prog.drop s.host.pos).filterMap Stmt.access := by
  induction n generalizing s with
  | zero => rw [List.drop_of_length_le (by omega)]; rfl
  | succ n ih =>
    obtain ⟨t, hstep, hrun'⟩ := run_succ n s v hrun
    have hlt : s.host.pos < s.host.prog.length := by omega
    have hst : nextStmt s = some s.host.prog[s.host.pos] := List.getElem?_eq_getElem hlt
    have h := (step_of_stmt ht hst).symm.trans hstep
    obtain ⟨hprog, hpos, hturns⟩ := hostStmt_goesOn _ _ t (hj _ (List.getElem_mem hlt)) h
    change t.host.prog = s.host.prog at hprog
    change t.host.pos = s.host.pos + 1 at hpos
    rw [encodeProgram_of_stmt n ht hst h, ih t hturns (by rw [hprog, hpos]; omega) (hprog ▸ hj) hrun', hprog, hpos,
      List.drop_eq_getElem_cons hlt, List.filterMap_cons]
    cases s.host.prog[s.host.pos].access <;> rfl

end StraightPrograms

section Wait
/-! ## The encoding of a WAIT whose command stays pending (30_encoding.md R99, R100) -/

/-- A command is pending and the Host stands at position `p`, where its program has a WAIT on the label `l`. -/
structure WaitsAt (s : State) (p l : Nat) (x : Var) : Prop where
  busy : s.busy = true
  pos : s.host.pos = p
  label : s.host.prog[p]? = some (.label l)
  read : s.host.prog[p + 1]? = some (hostR 0x0004 x)
  jump : s.host.prog[p + 2]? = some (.ifGoto x 0 l)
  first : ∀ q, q < p → s.host.prog[q]? ≠ some (.label l)

/-- A read of STATUS into a variable is exact whatever BUSY is (70_reset_and_hazards.md R277). -/
theorem hostStmt_status (x : Var) (s : State) :
    hostStmt (hostR 0x0004 x) s = .next (advance (setVar x (statusWord s) s)) := by
  rw [hostR, wordAtOffset, hostStmt_readTo _ x s (by decide) rfl, memRead_of_not_output _ s (by decide)]
  rfl

/-- Bit 0 of STATUS is BUSY (10_state.md R26). -/
theorem statusWord_busy (s : State) : (statusWord s).getLsbD 0 = s.busy := by
  rw [statusWord_getLsbD]; simp

/-- A Host variable's new value and the turns that are left do not move a WAIT. -/
theorem WaitsAt.setVar {s : State} {p l : Nat} {x : Var} (h : WaitsAt s p l x) (v : Word) (ts : List Turn) :
    WaitsAt (setVar x v { s with turns := ts }) p l x := { h with }

/-- The state after the label and the read of a WAIT, the read value `v`, with the turns that are left. -/
def afterWaitRead (x : Var) (v : Word) (ts : List Turn) (s : State) : State :=
  advance (setVar x v (advance { s with turns := ts }))

/-- The label and the read of a WAIT issue one read of STATUS. -/
theorem encodeProgram_waitRead {s : State} {p l : Nat} {x : Var} (h : WaitsAt s p l x) (n : Nat) (ts : List Turn)
    (ht : s.turns = .host :: .host :: ts) :
    encodeProgram (n + 2) s =
      ⟨.read, wordAtOffset 0x0004⟩ :: encodeProgram n (afterWaitRead x (statusWord s) ts s) := by
  obtain ⟨_, rfl, hl, hr, _, _⟩ := h
  rw [encodeProgram_of_stmt (n + 1) ht hl rfl]
  exact encodeProgram_of_stmt (s := advance { s with turns := .host :: ts }) n rfl hr (hostStmt_status x _)

/-- The jump of a WAIT whose variable shows BUSY = 1 issues nothing and goes back to the label. -/
theorem encodeProgram_waitJump {s : State} {p l : Nat} {x : Var} (h : WaitsAt s p l x) (n : Nat) (ts : List Turn)
    (v : Word) (hv : v.getLsbD 0 = true) :
    encodeProgram (n + 1) (afterWaitRead x v (.host :: ts) s) = encodeProgram n (setVar x v { s with turns := ts }) := by
  obtain ⟨_, rfl, hl, _, hj, hf⟩ := h
  have hx : getVar (afterWaitRead x v ts s) x = some v := getVar_setVar_same x v s
  exact encodeProgram_of_stmt (s := afterWaitRead x v (.host :: ts) s) n rfl hj
    (hostStmt_ifGoto_one x 0 l s.host.pos v (afterWaitRead x v ts s) hx hv hl hf)

/-- One round of a pending WAIT issues one read of STATUS and comes back to the label. -/
theorem encodeProgram_waitRound {s : State} {p l : Nat} {x : Var} (h : WaitsAt s p l x) (n : Nat) (ts : List Turn)
    (ht : s.turns = .host :: .host :: .host :: ts) :
    encodeProgram (n + 3) s =
      ⟨.read, wordAtOffset 0x0004⟩ :: encodeProgram n (setVar x (statusWord s) { s with turns := ts }) := by
  have hv : (statusWord s).getLsbD 0 = true := (statusWord_busy s).trans h.busy
  rw [encodeProgram_waitRead h (n + 1) (.host :: ts) ht, encodeProgram_waitJump h n ts _ hv]

/-- A WAIT whose command stays pending for `k` rounds issues `k` reads of STATUS. -/
theorem encodeProgram_wait (k : Nat) (s : State) (p l : Nat) (x : Var) (h : WaitsAt s p l x)
    (ht : s.turns = List.replicate (3 * k) .host) :
    encodeProgram (3 * k) s = List.replicate k ⟨.read, wordAtOffset 0x0004⟩ := by
  induction k generalizing s with
  | zero => rfl
  | succ k ih =>
    rw [Nat.mul_succ, encodeProgram_waitRound h (3 * k) (List.replicate (3 * k) .host) ht, ih _ (h.setVar _ _) rfl,
      List.replicate_succ]

end Wait

section EncodingObligations
/-! ## The obligations of 30_encoding.md -/

/-- Settles O1: a word is its two fields, and each command has its own pair of them. -/
theorem wordDecodesToItsCommandOnly : Obligations.WordDecodesToItsCommandOnly := by
  refine ⟨fun p => ⟨decode_eq_ok_iff p _, decode_eq_ok_iff p _, decode_eq_ok_iff p _, decode_eq_ok_iff p _,
    decode_eq_ok_iff p _, decode_eq_error_iff p⟩, fun i _ => ⟨decode_encode i, ?_⟩⟩
  cases i <;> rfl

/-- Settles O2: the rows of the map are the words of `encode`, and the others are illegal. -/
theorem opcodeMapDecodes : Obligations.OpcodeMapDecodes := by
  unfold Obligations.OpcodeMapDecodes
  decide

/-- Settles O3: acceptance does not look at the word, and its completion is that of a word that does not decode. -/
theorem illegalWordCompletesWithCodeOne : Obligations.IllegalWordCompletesWithCodeOne :=
  fun s p hp => ⟨memWrite_cmd_idle p s, fun hb hpend => engineTurn_illegal s hb (hpend ▸ hp)⟩

/-- Settles O4: a write to CMD is MemWrite at offset 8. -/
theorem commandAcceptance : Obligations.CommandAcceptance := by
  intro s v
  rw [busAccess_write_word _ v s (by decide) rfl]
  exact ⟨fun hb => by rw [memWrite_cmd_idle v s hb]; rfl, fun hb => by rw [memWrite_cmd_busy v s hb]⟩

/-- Settles O6: the step of the placed word is the completion of the command it encodes. -/
theorem placedWordRunsNext : Obligations.PlacedWordRunsNext := by
  intro s i
  have hc : Completes { accept (encode i) s with turns := .engine :: s.turns } i := ⟨rfl, rfl, decode_encode i⟩
  rw [withFetchWord_encode, step_of_completes hc]
  rfl

/-- Settles O57: one rule per statement, and the run of the reads of an RBYTES by induction on their number. -/
theorem hostStatementsDoWhatTheySay : Obligations.HostStatementsDoWhatTheySay := by
  refine ⟨fun s off v x b l name bs h h4 => ⟨hostStmt_write off v s h h4, hostStmt_read off s h h4,
    ⟨_, hostStmt_readTo off x s h h4, ?_, fun y hy => ?_, ?_⟩, ⟨_, rfl, rfl, ?_⟩, ⟨_, rfl, rfl, ?_⟩, rfl,
    fun w hx hw => hostStmt_ifGoto_zero x b l w s hx hw,
    fun w p hx hw hp hf => hostStmt_ifGoto_one x b l p w s hx hw hp hf⟩, fun s r n name hb hr hn => ?_⟩
  · rw [getVar_advance, getVar_setVar_same]
  · rw [getVar_advance, getVar_setVar_ne x y _ _ hy, getVar_memRead]
  · rw [memRead_state]; rfl
  · simp
  · simp
  · exact runStmts_rbytes r hr name n s hb hn

/-- Settles O58, clause by clause: a statement's transaction is all the block sees of it, and the encodings of the two
kinds of program are by induction on their turns. -/
theorem statementsWithoutAccessLeaveTheBlock : Obligations.StatementsWithoutAccessLeaveTheBlock := by
  refine ⟨hostStmt_next_of_no_access, fun s t hn h => ?_, fun s v n ht hpos hlen hj hrun => ?_,
    fun s p l x k hb hpos hl hr hj hf ht => encodeProgram_wait k s p l x ⟨hb, hpos, hl, hr, hj, hf⟩ ht⟩
  · rw [step_of_host hn] at h
    rw [nextAccess_of_host hn]
    cases hst : nextStmt s with
    | none =>
      cases (hostTurn_of_ended (s := tookTurn s) hst).symm.trans h
      rfl
    | some st =>
      have h' := (hostTurn_of_stmt (s := tookTurn s) hst).symm.trans h
      rw [Option.bind_some]
      cases ha : st.access with
      | none => exact hostStmt_next_of_no_access st _ t ha h'
      | some a => exact hostStmt_next_of_access st a _ t ha h'
  · rw [encodeProgram_straight n s v ht (by omega) hj hrun, hpos, List.drop_zero]

end EncodingObligations

end Sys2Proof.Machine

/-! # The AES core: proofs of the statements of 40_aes_core.md. -/

namespace Sys2Proof.Aes

open Sys2Proof

section ByteField
/-! ## The product of GF(2^8) (40_aes_core.md R112) -/

theorem gmulLoop_xor (n : Nat) (a b c p q : Byte) :
    gmulLoop n a (b ^^^ c) (p ^^^ q) = gmulLoop n a b p ^^^ gmulLoop n a c q := by
  induction n generalizing a b c p q with
  | zero => rfl
  | succ n ih =>
    have hsum : (if (b ^^^ c).getLsbD 0 then p ^^^ q ^^^ a else p ^^^ q) =
        (if b.getLsbD 0 then p ^^^ a else p) ^^^ (if c.getLsbD 0 then q ^^^ a else q) := by
      have hcancel : p ^^^ a ^^^ (q ^^^ a) = p ^^^ q := by
        rw [BitVec.xor_comm q a, BitVec.xor_assoc, ← BitVec.xor_assoc a a q, BitVec.xor_self, BitVec.zero_xor]
      rw [BitVec.getLsbD_xor]
      cases b.getLsbD 0 <;> cases c.getLsbD 0
      · rfl
      · exact BitVec.xor_assoc p q a
      · change p ^^^ q ^^^ a = p ^^^ a ^^^ q
        ac_rfl
      · exact hcancel.symm
    simp only [gmulLoop, BitVec.ushiftRight_xor_distrib, hsum, ih]

/-- The product distributes over the sum (R110, R112). -/
theorem gmul_xor (a b c : Byte) : gmul a (b ^^^ c) = gmul a b ^^^ gmul a c :=
  gmulLoop_xor 8 a b c 0 0

end ByteField

section Tables
/-! ## The S-box and its inverse (40_aes_core.md R113 to R115) -/

/-- The table of R114 holds the affine map of the inverse. -/
theorem sbox_eq_affine_inv : ∀ x : Byte, sbox x = affine (inv x) := by decide +kernel

/-- The table of R115 undoes that of R114. -/
@[simp] theorem invSbox_sbox : ∀ x : Byte, invSbox (sbox x) = x := by decide +kernel

/-- The table of R114 undoes that of R115. -/
@[simp] theorem sbox_invSbox : ∀ x : Byte, sbox (invSbox x) = x := by decide +kernel

/-- Every byte but 0 times its inverse is 1 (R113). -/
theorem gmul_inv_self : ∀ x : Byte, x ≠ 0 → gmul x (inv x) = 1 := by decide +kernel

@[simp] theorem inv_zero : inv 0 = 0 := by decide +kernel

end Tables

section Columns
/-! ## The circulant products of a column (40_aes_core.md R119, R123) -/

theorem circulant_xor (k0 k1 k2 k3 : Byte) (a b : ByteWord) :
    circulant k0 k1 k2 k3 (a.xor b) = (circulant k0 k1 k2 k3 a).xor (circulant k0 k1 k2 k3 b) := by
  simp only [circulant, ByteWord.xor, gmul_xor, ByteWord.mk.injEq]
  exact ⟨by ac_rfl, by ac_rfl, by ac_rfl, by ac_rfl⟩

theorem circulant_rotWord (k0 k1 k2 k3 : Byte) (a : ByteWord) :
    circulant k0 k1 k2 k3 (rotWord a) = rotWord (circulant k0 k1 k2 k3 a) := by
  simp only [circulant, rotWord, ByteWord.mk.injEq]
  exact ⟨by ac_rfl, by ac_rfl, by ac_rfl, by ac_rfl⟩

/-- A column is the sum of four rotated columns with one byte each. -/
theorem byteWord_eq_xor_rotWord (a : ByteWord) :
    a = (ByteWord.mk a.b0 0 0 0).xor (rotWord ((ByteWord.mk a.b3 0 0 0).xor
      (rotWord ((ByteWord.mk a.b2 0 0 0).xor (rotWord ⟨a.b1, 0, 0, 0⟩))))) := by
  simp [ByteWord.xor, rotWord]

/-- The two matrices are inverse to each other on a column with one byte. -/
theorem invMixColumn_mixColumn_single :
    ∀ b : Byte, invMixColumn (mixColumn ⟨b, 0, 0, 0⟩) = ⟨b, 0, 0, 0⟩ := by decide +kernel

/-- InvMixColumns undoes MixColumns on a column: both are linear and commute with the rotation, so one byte decides. -/
@[simp] theorem invMixColumn_mixColumn (a : ByteWord) : invMixColumn (mixColumn a) = a := by
  have hxor (a b : ByteWord) :
      invMixColumn (mixColumn (a.xor b)) = (invMixColumn (mixColumn a)).xor (invMixColumn (mixColumn b)) := by
    simp only [invMixColumn, mixColumn, circulant_xor]
  have hrot (a : ByteWord) : invMixColumn (mixColumn (rotWord a)) = rotWord (invMixColumn (mixColumn a)) := by
    simp only [invMixColumn, mixColumn, circulant_rotWord]
  rw [byteWord_eq_xor_rotWord a]
  simp only [hxor, hrot, invMixColumn_mixColumn_single]

end Columns

section Rounds
/-! ## The inverse of each layer, of a round and of the cipher (40_aes_core.md R130 to R132) -/

@[simp] theorem invSubBytes_subBytes (s : Block) : invSubBytes (subBytes s) = s := by
  simp [invSubBytes, subBytes, mapBytes, ByteWord.map]

@[simp] theorem invMixColumns_mixColumns (s : Block) : invMixColumns (mixColumns s) = s := by
  simp [invMixColumns, mixColumns]

/-- The last of `n + 1` rounds is applied to the state after the first `n`. -/
theorem cipherRounds_succ_last (w : List ByteWord) (n rnd : Nat) (s : Block) :
    cipherRounds w (n + 1) rnd s =
      addRoundKey w (rnd + n) (mixColumns (shiftRows (subBytes (cipherRounds w n rnd s)))) := by
  induction n generalizing rnd s with
  | zero => rfl
  | succ n ih => rw [cipherRounds, ih, cipherRounds, Nat.add_right_comm, Nat.add_assoc]

/-- The rounds `n` down to 1 of R131, applied after those of R130, leave SubBytes and ShiftRows of each to undo. -/
theorem invCipherRounds_cipherRounds (w : List ByteWord) (n : Nat) (s : Block) :
    invCipherRounds w n (shiftRows (subBytes (cipherRounds w n 1 s))) = shiftRows (subBytes s) := by
  induction n with
  | zero => rfl
  | succ n ih => simp [invCipherRounds, cipherRounds_succ_last, Nat.add_comm 1 n, ih]

/-- InvCipher undoes Cipher under every schedule and number of rounds (R132). -/
@[simp] theorem invCipher_cipher (w : List ByteWord) (nr : Nat) (x : Block) : invCipher w nr (cipher w nr x) = x := by
  simp [invCipher, cipher, invCipherRounds_cipherRounds]

end Rounds

section Schedule
/-! ## The words of a schedule (40_aes_core.md R128) -/

theorem wordAt_wordsOf (n : Nat) (bs : List Byte) (i : Nat) (h : i < n) :
    wordAt (wordsOf n bs) i = ByteWord.ofList (bs.drop (4 * i)) := by
  induction n generalizing bs i with
  | zero => omega
  | succ n ih =>
    cases i with
    | zero => rfl
    | succ i =>
      calc wordAt (wordsOf (n + 1) bs) (i + 1)
        _ = wordAt (wordsOf n (bs.drop 4)) i := rfl
        _ = ByteWord.ofList ((bs.drop 4).drop (4 * i)) := ih _ i (by omega)
        _ = ByteWord.ofList (bs.drop (4 * (i + 1))) := by rw [List.drop_drop, Nat.mul_succ, Nat.add_comm]

theorem byteWord_toList_ofList (bs : List Byte) (h : 4 ≤ bs.length) : (ByteWord.ofList bs).toList = bs.take 4 := by
  match bs, h with
  | a :: b :: c :: d :: _, _ => rfl

/-- Each word the loop of R128 adds is the sum of the word `nk` back and the transformed word before. -/
theorem expandLoop_wordAt_new (nk n : Nat) (w : List ByteWord) (i : Nat) (hnk : 0 < nk) (hw : nk ≤ w.length)
    (hlo : w.length ≤ i) (hhi : i < w.length + n) :
    wordAt (expandLoop nk n w) i = (wordAt (expandLoop nk n w) (i - nk)).xor
      (scheduleTemp nk i (wordAt (expandLoop nk n w) (i - 1))) := by
  induction n generalizing w with
  | zero => omega
  | succ n ih =>
    rcases hlo.eq_or_lt with rfl | hlt
    · rw [expandLoop_wordAt_old _ _ _ (w.length - nk) (by omega), expandLoop_wordAt_old _ _ _ (w.length - 1) (by omega),
        expandLoop, expandLoop_wordAt_old _ _ _ _ (by simp)]
      simp [wordAt]
    · have hlen (x : ByteWord) : (w ++ [x]).length = w.length + 1 := List.length_append
      exact ih _ (by rw [hlen]; omega) (by rw [hlen]; exact hlt) (by rw [hlen]; omega)

end Schedule

section AesObligations
/-! ## The obligations of 40_aes_core.md -/

/-- Settles O35: each clause is a check of the 256 bytes. -/
theorem sboxTablesAreAsDefined : Obligations.SboxTablesAreAsDefined := fun x =>
  ⟨sbox_eq_affine_inv x, invSbox_sbox x, sbox_invSbox x, gmul_inv_self x, inv_zero⟩

/-- Settles O36: the first words are the key's and stay, and every later one is added by the loop. -/
theorem keyExpansionRecurrence : Obligations.KeyExpansionRecurrence := by
  intro key hkey
  refine ⟨keyExpansion_length key, fun i hi => ?_, fun i hlo hhi => ?_⟩
  · have hold : wordAt (keyExpansion key) i = ByteWord.ofList (key.drop (4 * i)) :=
      (expandLoop_wordAt_old _ _ _ i (by rwa [wordsOf_length])).trans (wordAt_wordsOf _ key i hi)
    rw [hold, byteWord_toList_ofList _ (by rw [List.length_drop]; omega)]
  · have hlen : (wordsOf (nkOf key.length) key).length = key.length / 4 := wordsOf_length _ _
    rw [keyExpansion_length, nrOf] at hhi
    exact expandLoop_wordAt_new (nkOf key.length) _ _ i (by unfold nkOf; omega) hlen.ge (by omega)
      (by rw [hlen]; unfold nkOf nrOf; omega)

/-- Settles O37: the rounds are undone under any schedule, the key's among them. -/
theorem invCipherUndoesCipher : Obligations.InvCipherUndoesCipher :=
  fun key x _ => invCipher_cipher (keyExpansion key) (key.length / 4 + 6) x

end AesObligations

end Sys2Proof.Aes

/-! # The AES commands: proofs of the statements of 41_aes_commands.md. -/

namespace Sys2Proof.Machine

open Sys2Proof

section CommandFrames
/-! ## What the commands leave unchanged (30_encoding.md R95, 41_aes_commands.md R160, R164) -/

/-- A completion touches nothing but the block: the Host, the turns and the counts of draws stay (60_exceptions.md R236). -/
theorem complete_sameOutside (code : ResultCode) {s t : State} (h : SameOutside s t) : SameOutside s (complete code t) := h

/-- No command reaches outside the block (30_encoding.md R95). -/
theorem exec_sameOutside (i : Instr) (s t : State) (h : exec i s = .next t) : SameOutside s t := by
  have hs : SameOutside s s := ⟨rfl, rfl, rfl, rfl⟩
  cases i with
  | expandKey => rcases execExpandKey_cases s t h with ⟨_, rfl⟩ | ⟨_, rfl⟩ <;> exact complete_sameOutside _ hs
  | encryptBlock => rcases execEncryptBlock_cases s t h with ⟨_, rfl⟩ | ⟨_, rfl⟩ <;> exact complete_sameOutside _ hs
  | decryptBlock => rcases execDecryptBlock_cases s t h with ⟨_, rfl⟩ | ⟨_, rfl⟩ <;> exact complete_sameOutside _ hs
  | gcmSeal =>
    rcases execGcmSeal_cases s t h with ⟨_, _, rfl⟩ | ⟨_, _, rfl⟩ | ⟨_, rfl⟩ <;> exact complete_sameOutside _ hs
  | gcmOpen =>
    rcases execGcmOpen_cases s t h with ⟨_, _, _, _, rfl⟩ | ⟨_, _, _, rfl⟩ | ⟨_, _, rfl⟩ | ⟨_, rfl⟩ <;>
      exact complete_sameOutside _ hs

/-- Only the GCM commands write TAG and TEXT_BUF (41_aes_commands.md R160, R164). -/
theorem exec_sameTagAndText (i : Instr) (s t : State) (hseal : i ≠ .gcmSeal) (hopen : i ≠ .gcmOpen)
    (h : exec i s = .next t) : t.tag = s.tag ∧ ∀ j, textByte t j = textByte s j := by
  cases i with
  | expandKey => rcases execExpandKey_cases s t h with ⟨_, rfl⟩ | ⟨_, rfl⟩ <;> exact ⟨rfl, fun _ => rfl⟩
  | encryptBlock => rcases execEncryptBlock_cases s t h with ⟨_, rfl⟩ | ⟨_, rfl⟩ <;> exact ⟨rfl, fun _ => rfl⟩
  | decryptBlock => rcases execDecryptBlock_cases s t h with ⟨_, rfl⟩ | ⟨_, rfl⟩ <;> exact ⟨rfl, fun _ => rfl⟩
  | gcmSeal => exact absurd rfl hseal
  | gcmOpen => exact absurd rfl hopen

/-- EXPAND_KEY leaves BOUT (41_aes_commands.md R160 e). -/
theorem execExpandKey_bout (s t : State) (h : exec .expandKey s = .next t) : t.bout = s.bout := by
  rcases execExpandKey_cases s t h with ⟨_, rfl⟩ | ⟨_, rfl⟩ <;> rfl

end CommandFrames

section KeyLengths
/-! ## The legal values of KEYLEN (41_aes_commands.md R160) -/

theorem keyLengthLegal_keyLength_iff (s : State) :
    keyLengthLegal (keyLength s) = true ↔ s.keylen = 16 ∨ s.keylen = 24 ∨ s.keylen = 32 := by
  simp [keyLengthLegal_iff, keyLength, ← BitVec.toNat_inj]

end KeyLengths

section AesCommandObligations
/-! ## The obligations of 41_aes_commands.md -/

/-- Settles O24: the two cases are EXPAND_KEY's with a legal KEYLEN and with another. -/
theorem expandKeyResult : Obligations.ExpandKeyResult := by
  refine fun s => ⟨fun hlegal => ?_, fun h16 h24 h32 => ?_⟩
  · exact execExpandKey_ok s ((keyLengthLegal_keyLength_iff s).mpr hlegal)
  · have hillegal : ¬ keyLengthLegal (keyLength s) = true := by
      rw [keyLengthLegal_keyLength_iff]
      rintro (h | h | h)
      exacts [h16 h, h24 h, h32 h]
    exact execExpandKey_invalid s (Bool.eq_false_of_not_eq_true hillegal)

/-- Settles O25: with a schedule BOUT takes the cipher of BIN, without one the code is KEY_NOT_READY. -/
theorem encryptBlockResult : Obligations.EncryptBlockResult :=
  fun s => ⟨execEncryptBlock_ok s, execEncryptBlock_notReady s⟩

/-- Settles O26: with a schedule BOUT takes the inverse cipher of BIN, without one the code is KEY_NOT_READY. -/
theorem decryptBlockResult : Obligations.DecryptBlockResult :=
  fun s => ⟨execDecryptBlock_ok s, execDecryptBlock_notReady s⟩

/-- Settles O29: what no command writes, what EXPAND_KEY alone writes and what the GCM commands alone write. -/
theorem blockCommandsFrame : Obligations.BlockCommandsFrame := by
  intro i s t hi h
  obtain ⟨hexpand, hseal, hopen⟩ : i ≠ .expandKey ∧ i ≠ .gcmSeal ∧ i ≠ .gcmOpen := by
    rcases hi with rfl | rfl <;> decide
  obtain ⟨htag, htext⟩ := exec_sameTagAndText i s t hseal hopen h
  exact ⟨exec_sameOperands i s t h, exec_sameSchedule i s t hexpand h, htag, htext, exec_sameOutside i s t h⟩

/-- Settles O30: what no command writes, BOUT, and what the GCM commands alone write. -/
theorem expandKeyFrame : Obligations.ExpandKeyFrame := by
  intro s t h
  obtain ⟨htag, htext⟩ := exec_sameTagAndText .expandKey s t nofun nofun h
  exact ⟨exec_sameOperands _ s t h, ⟨execExpandKey_bout s t h, htag, htext⟩, exec_sameOutside _ s t h⟩

/-- Settles O38: both commands run with the one schedule the first left, under which InvCipher undoes Cipher (R132). -/
theorem decryptBlockUndoesEncryptBlock : Obligations.DecryptBlockUndoesEncryptBlock := by
  intro s hsv
  refine ⟨_, _, execEncryptBlock_ok s hsv, execDecryptBlock_ok _ hsv, ?_, ⟨rfl, rfl, rfl⟩, ⟨rfl, rfl, rfl⟩⟩
  exact Aes.invCipher_cipher s.sched (rounds s) s.bin

end AesCommandObligations

end Sys2Proof.Machine

/-! # The GCM core: proofs of the statements of 42_gcm_core.md. -/

namespace Sys2Proof.Gcm

open Sys2Proof

section Counters
/-! ## The counter blocks (42_gcm_core.md R184, R186, R192) -/

/-- The counter blocks from J0 on keep the nonce, and the `j`-th has the counter j + 1 modulo 2^32. -/
theorem inc32_iterate_preCounter (n : NonceReg) (j : Nat) :
    inc32^[j] (preCounter n) = ⟨n.w0, n.w1, n.w2, ByteWord.ofWord (BitVec.ofNat 32 (j + 1))⟩ := by
  induction j with
  | zero => rfl
  | succ j ih => simp [Function.iterate_succ_apply', ih, inc32, BitVec.ofNat_add]

end Counters

section FieldProduct
/-! ## The product of GF(2^128) (42_gcm_core.md R182) -/

/-- A bit times an element of the field: what one bit of X adds to Z, and the bit that falls out of V to V. -/
def bitMul (b : Bool) (v : BitVec 128) : BitVec 128 := if b then v else 0

@[simp] theorem bitMul_false (v : BitVec 128) : bitMul false v = 0#128 := rfl

@[simp] theorem bitMul_getLsbD (b : Bool) (v : BitVec 128) (i : Nat) : (bitMul b v).getLsbD i = (b && v.getLsbD i) := by
  cases b <;> simp [bitMul]

theorem bitMul_xor_left (a b : Bool) (v : BitVec 128) : bitMul (a ^^ b) v = bitMul a v ^^^ bitMul b v := by
  cases a <;> cases b <;> simp [bitMul]

theorem bitMul_xor_right (b : Bool) (v v' : BitVec 128) : bitMul b (v ^^^ v') = bitMul b v ^^^ bitMul b v' := by
  cases b <;> simp [bitMul]

/-- One step of V is a shift and the reduction by the bit that falls out. -/
theorem shiftReduce_eq (v : BitVec 128) : shiftReduce v = v >>> 1 ^^^ bitMul (v.getLsbD 0) reduction := by
  rw [shiftReduce]; cases v.getLsbD 0 <;> simp [bitMul]

theorem shiftReduce_xor (v v' : BitVec 128) : shiftReduce (v ^^^ v') = shiftReduce v ^^^ shiftReduce v' := by
  simp only [shiftReduce_eq, BitVec.getLsbD_xor, bitMul_xor_left, BitVec.ushiftRight_xor_distrib]
  ac_rfl

/-- One step of the loop adds the next bit of X times V to Z. -/
theorem gf128Loop_succ (x : BitVec 128) (n : Nat) (z v : BitVec 128) :
    gf128Loop x (n + 1) z v = gf128Loop x n (z ^^^ bitMul (x.getLsbD n) v) (shiftReduce v) := by
  rw [gf128Loop]; cases x.getLsbD n <;> simp [bitMul]

/-- The loop is linear in X and Z together. -/
theorem gf128Loop_xor_left (a b : BitVec 128) (n : Nat) (z z' v : BitVec 128) :
    gf128Loop (a ^^^ b) n (z ^^^ z') v = gf128Loop a n z v ^^^ gf128Loop b n z' v := by
  induction n generalizing z z' v with
  | zero => rfl
  | succ n ih =>
    simp only [gf128Loop_succ, ← ih, BitVec.getLsbD_xor, bitMul_xor_left]
    congr 1
    ac_rfl

/-- The loop is linear in Y and Z together. -/
theorem gf128Loop_xor_right (x : BitVec 128) (n : Nat) (z z' v v' : BitVec 128) :
    gf128Loop x n (z ^^^ z') (v ^^^ v') = gf128Loop x n z v ^^^ gf128Loop x n z' v' := by
  induction n generalizing z z' v v' with
  | zero => rfl
  | succ n ih =>
    simp only [gf128Loop_succ, ← ih, shiftReduce_xor, bitMul_xor_right]
    congr 1
    ac_rfl

theorem gf128Mul_xor_left (a b y : BitVec 128) : gf128Mul (a ^^^ b) y = gf128Mul a y ^^^ gf128Mul b y :=
  gf128Loop_xor_left a b 128 0 0 y

theorem gf128Mul_xor_right (x a b : BitVec 128) : gf128Mul x (a ^^^ b) = gf128Mul x a ^^^ gf128Mul x b :=
  gf128Loop_xor_right x 128 0 0 a b

@[simp] theorem zero_gf128Mul (y : BitVec 128) : gf128Mul 0 y = 0 := by
  simpa using gf128Mul_xor_left 0 0 y

@[simp] theorem gf128Mul_zero (x : BitVec 128) : gf128Mul x 0 = 0 := by
  simpa using gf128Mul_xor_right x 0 0

/-- Bits of X that are all zero add nothing. -/
theorem gf128Loop_of_bits_zero (x : BitVec 128) (n : Nat) (z v : BitVec 128) (h : ∀ i < n, x.getLsbD i = false) :
    gf128Loop x n z v = z := by
  induction n generalizing z v with
  | zero => rfl
  | succ n ih =>
    rw [gf128Loop_succ, h n n.lt_succ_self, bitMul_false, BitVec.xor_zero]
    exact ih _ _ fun i hi => h i (hi.trans n.lt_succ_self)

/-- The block 80 00 ... 00 as X: its first bit adds Y, the others nothing. -/
theorem one_gf128Mul (y : BitVec 128) : gf128Mul (1#128 <<< 127) y = y := by
  rw [gf128Mul, gf128Loop_succ, gf128Loop_of_bits_zero _ _ _ _ (by decide),
    show (1#128 <<< 127).getLsbD 127 = true by decide]
  exact BitVec.zero_xor

/-- Above bit 0, a step moves the one bit of V down and nothing falls out. -/
theorem shiftReduce_twoPow_succ (n : Nat) (h : n + 1 < 128) :
    shiftReduce (BitVec.twoPow 128 (n + 1)) = BitVec.twoPow 128 n := by
  rw [shiftReduce_eq, BitVec.getLsbD_twoPow, decide_eq_false (by omega : ¬ n + 1 = 0), Bool.and_false, bitMul_false,
    BitVec.xor_zero]
  apply BitVec.eq_of_getLsbD_eq
  intro i hi
  rw [BitVec.getLsbD_ushiftRight, BitVec.getLsbD_twoPow, BitVec.getLsbD_twoPow, Nat.add_comm 1 i]
  simp [h, Nat.lt_of_succ_lt h]

/-- While V is the one bit at the place of X's next one, the loop adds the bits of X that are left to Z. -/
theorem gf128Loop_twoPow_getLsbD (x : BitVec 128) (n : Nat) (z : BitVec 128) (hn : n < 128) (i : Nat) :
    (gf128Loop x (n + 1) z (BitVec.twoPow 128 n)).getLsbD i = (z.getLsbD i ^^ (decide (i ≤ n) && x.getLsbD i)) := by
  induction n generalizing z with
  | zero =>
    rw [gf128Loop_succ, gf128Loop, BitVec.getLsbD_xor, bitMul_getLsbD, BitVec.getLsbD_twoPow]
    rcases i.eq_zero_or_pos with rfl | hi
    · simp
    · simp [hi.ne', hi.ne]
  | succ n ih =>
    rw [gf128Loop_succ, shiftReduce_twoPow_succ n hn, ih _ (by omega), BitVec.getLsbD_xor, bitMul_getLsbD,
      BitVec.getLsbD_twoPow]
    rcases lt_trichotomy i (n + 1) with hi | rfl | hi
    · simp [hi.ne', Nat.le_of_lt_succ hi, hi.le]
    · simp [hn]
    · simp [hi.ne, hi.not_ge, (n.lt_succ_self.trans hi).not_ge]

/-- The block 80 00 ... 00 as Y: V runs through the places of X's bits. -/
theorem gf128Mul_one (x : BitVec 128) : gf128Mul x (1#128 <<< 127) = x := by
  apply BitVec.eq_of_getLsbD_eq
  intro i hi
  refine (gf128Loop_twoPow_getLsbD x 127 0 (by omega) i).trans ?_
  simp [Nat.le_of_lt_succ hi]

end FieldProduct

section CounterMode
/-! ## Counter mode (42_gcm_core.md R185) and the authenticated cipher (R189, R190) -/

/-- The blocks of an empty rest are empty. -/
theorem gctrBlocks_nil (w : List ByteWord) (nr q : Nat) (cb : Block) : gctrBlocks w nr q cb [] = [] :=
  List.length_eq_zero_iff.mp (by simp [gctrBlocks_length])

/-- The first 16 bytes counter mode gives are the first block's and the others the other blocks', a partial block being
the last one. -/
theorem gctrBlocks_succ_take_drop (w : List ByteWord) (nr q : Nat) (cb : Block) (x : List Byte) :
    (gctrBlocks w nr (q + 1) cb x).take 16 = xorBytes (x.take 16) (Aes.cipher w nr cb).toList ∧
    (gctrBlocks w nr (q + 1) cb x).drop 16 = gctrBlocks w nr q (inc32 cb) (x.drop 16) := by
  have hlen : (xorBytes (x.take 16) (Aes.cipher w nr cb).toList).length = min 16 x.length := by simp
  rw [gctrBlocks]
  rcases Nat.lt_or_ge x.length 16 with hx | hx
  · rw [List.drop_of_length_le hx.le, gctrBlocks_nil, List.append_nil]
    exact ⟨List.take_of_length_le (by omega), List.drop_of_length_le (by omega)⟩
  · have h16 := hlen.trans (Nat.min_eq_left hx)
    exact ⟨List.take_left' h16, List.drop_left' h16⟩

/-- Each block takes the same keystream both times, so it cancels. -/
theorem gctrBlocks_gctrBlocks (w : List ByteWord) (nr q : Nat) (cb : Block) (x : List Byte) (h : x.length ≤ 16 * q) :
    gctrBlocks w nr q cb (gctrBlocks w nr q cb x) = x := by
  induction q generalizing cb x with
  | zero => exact (List.length_eq_zero_iff.mp (by omega)).symm
  | succ q ih =>
    obtain ⟨htake, hdrop⟩ := gctrBlocks_succ_take_drop w nr q cb x
    rw [gctrBlocks, htake, hdrop, ih _ _ (by rw [List.length_drop]; omega),
      xorBytes_cancel _ _ (by simp), List.take_append_drop]

/-- Counter mode twice from the same counter block gives the sequence back. -/
@[simp] theorem gctr_gctr (w : List ByteWord) (nr : Nat) (icb : Block) (x : List Byte) :
    gctr w nr icb (gctr w nr icb x) = x := by
  conv_lhs => rw [gctr, gctr_length]
  exact gctrBlocks_gctrBlocks w nr _ icb x (by omega)

@[simp] theorem gcmAe_length (w : List ByteWord) (nr : Nat) (n : NonceReg) (a p : List Byte) :
    (gcmAe w nr n a p).1.length = p.length := gctr_length _ _ _ _

/-- With the tag of the sealing the ciphertext opens to the plaintext, with any other it does not open (R193, R194 a). -/
theorem gcmAd_gcmAe (w : List ByteWord) (nr : Nat) (n : NonceReg) (a p : List Byte) (t : Block) :
    gcmAd w nr n a (gcmAe w nr n a p).1 t = if (gcmAe w nr n a p).2 = t then some p else none :=
  congrArg (fun q => if (gcmAe w nr n a p).2 = t then some q else none) (gctr_gctr w nr _ p)

end CounterMode

section Hash
/-! ## The hash under the zero subkey and of empty sequences (42_gcm_core.md R188, R194 c) -/

theorem zero_blockMul (h : Block) : blockMul .zero h = .zero := by
  rw [blockMul, show Block.zero.toBits = 0 from rfl, zero_gf128Mul]; rfl

theorem blockMul_zero (x : Block) : blockMul x .zero = .zero := by
  rw [blockMul, show Block.zero.toBits = 0 from rfl, gf128Mul_zero]; rfl

/-- Under the zero subkey each step gives zero, whatever the block. -/
theorem ghashBlocks_zero (xs : List Block) : ghashBlocks .zero .zero xs = .zero := by
  induction xs with
  | nil => rfl
  | cons x xs ih => rw [ghashBlocks, List.foldl_cons, blockMul_zero]; exact ih

/-- The hash input of empty sequences is the one block of two zero lengths (R188). -/
theorem ghash_hashInput_nil (h : Block) : ghash h (hashInput [] []) = .zero :=
  calc ghash h (hashInput [] [])
    _ = blockMul (Block.zero.xor .zero) h := rfl
    _ = .zero := by rw [Block.xor_zero, zero_blockMul]

end Hash

section GcmCoreObligations
/-! ## The obligations of 42_gcm_core.md -/

/-- Settles O39: the counter starts at 1, and a text of at most 16384 bytes has at most 1024 blocks. -/
theorem countersDoNotWrap : Obligations.CountersDoNotWrap := by
  refine ⟨fun cb => ⟨ByteWord.toWord_ofWord _, rfl, rfl, rfl⟩, fun n j hj => ⟨inc32_iterate_preCounter n j, ?_⟩,
    fun s hlegal => ?_⟩
  · rw [BitVec.toNat_ofNat, Nat.mod_eq_of_lt (by omega)]
  · have htext : s.textlen.toNat ≤ 16384 := ((Machine.lengthsLegal_iff s).mp hlegal).2
    rw [Machine.textOperand_length]
    omega

/-- Settles O40: the loop is linear in either factor, and the one bit of 80 00 ... 00 selects or copies the other. -/
theorem fieldProductIsBilinear : Obligations.FieldProductIsBilinear :=
  ⟨gf128Mul_one, one_gf128Mul, gf128Mul_zero, zero_gf128Mul, gf128Mul_xor_left, gf128Mul_xor_right⟩

/-- Settles O41: the second pass meets the keystream of the first. -/
theorem counterModeUndoesItself : Obligations.CounterModeUndoesItself :=
  fun w nr icb x => ⟨gctr_length w nr icb x, gctr_gctr w nr icb x⟩

/-- Settles O42: the tag is the one computed, and counter mode undoes itself. -/
theorem openUndoesSeal : Obligations.OpenUndoesSeal :=
  fun w nr n a p => (gcmAd_gcmAe w nr n a p _).trans (if_pos rfl)

/-- Settles O43: a product with the zero subkey, and one with the zero block of the empty hash, is zero. -/
theorem zeroHashes : Obligations.ZeroHashes :=
  ⟨fun _ _ => ghashBlocks_zero _, ghash_hashInput_nil⟩

end GcmCoreObligations

end Sys2Proof.Gcm

/-! # GCM_SEAL, then GCM_OPEN, on the machine (42_gcm_core.md R193, R194 a; 70_reset_and_hazards.md R282). -/

namespace Sys2Proof.Machine

open Sys2Proof

section SealThenOpen
/-! ## TEXT_BUF and the operands after GCM_SEAL (43_gcm_commands.md R210, R211) -/

/-- A byte of the text operand is TEXT_BUF's. -/
theorem textOperand_getD (s : State) (i : Nat) (h : i < s.textlen.toNat) : (textOperand s).getD i 0 = textByte s i := by
  simp [textOperand, h]

/-- The text operand after a store of TEXTLEN bytes is those bytes. -/
theorem textOperand_storeText (bs : List Byte) (s : State) (h : bs.length = s.textlen.toNat) :
    textOperand (storeText bs s) = bs := by
  refine List.ext_getElem (by simp [h]) fun i _ hi => ?_
  simp [textOperand, textByte_storeText, hi]

/-- Storing the text operand again undoes a store of TEXTLEN bytes. -/
theorem textByte_storeText_textOperand (bs : List Byte) (s t : State) (hbs : bs.length = s.textlen.toNat)
    (ht : ∀ i, textByte t i = textByte (storeText bs s) i) (i : Nat) :
    textByte (storeText (textOperand s) t) i = textByte s i := by
  rw [textByte_storeText, ht, textByte_storeText, textOperand_length, hbs]
  split_ifs with hi
  · exact textOperand_getD s i hi
  · rfl

/-- The state GCM_SEAL leaves (43_gcm_commands.md R210). -/
abbrev afterSeal (s : State) : State := complete .ok { storeText (sealed s).1 s with tag := (sealed s).2 }

theorem sealed_length (s : State) : (sealed s).1.length = s.textlen.toNat := by simp

/-- What GCM_OPEN computes after GCM_SEAL and a write of TAG: the plaintext for the tag sealed, none for any other. -/
theorem opened_afterSeal (s : State) (g : Block) :
    opened { afterSeal s with tag := g } = if (sealed s).2 = g then some (textOperand s) else none := by
  have htext : textOperand { afterSeal s with tag := g } = (sealed s).1 := textOperand_storeText _ s (sealed_length s)
  rw [opened, htext]
  exact Gcm.gcmAd_gcmAe s.sched (rounds s) s.nonce (aadOperand s) (textOperand s) g

/-- Settles O44: GCM_OPEN meets the operands of the GCM_SEAL and its ciphertext, so TAG alone decides the outcome. -/
theorem gcmOpenUndoesGcmSeal : Obligations.GcmOpenUndoesGcmSeal := by
  intro s hsv haad htext
  have hlegal : lengthsLegal s = true := (lengthsLegal_iff s).mpr ⟨haad, htext⟩
  have hopen : opened (afterSeal s) = some (textOperand s) := (opened_afterSeal s _).trans (if_pos rfl)
  refine ⟨afterSeal s, _, execGcmSeal_ok s hsv hlegal, ⟨rfl, rfl, rfl⟩, execGcmOpen_ok _ _ hsv hlegal hopen,
    ⟨rfl, rfl, rfl⟩, ?_, rfl, fun g hg => ?_⟩
  · exact textByte_storeText_textOperand (sealed s).1 s (afterSeal s) (sealed_length s) fun _ => rfl
  · have hfail : opened { afterSeal s with tag := g } = none := (opened_afterSeal s g).trans (if_neg hg.symm)
    exact ⟨_, execGcmOpen_authFail _ hsv hlegal hfail, ⟨rfl, rfl, rfl⟩, rfl, fun _ => rfl⟩

end SealThenOpen

end Sys2Proof.Machine

/-! # The GCM commands: proofs of the statements of 43_gcm_commands.md. -/

namespace Sys2Proof.Machine

open Sys2Proof

section TextBuffer
/-! ## TEXT_BUF after a store of TEXTLEN bytes (43_gcm_commands.md R210, R211) -/

/-- A store of TEXTLEN bytes replaces the bytes below TEXTLEN and no other. -/
theorem textByte_storeText_textlen {bs : List Byte} {s : State} (hbs : bs.length = s.textlen.toNat) (i : Nat) :
    textByte (storeText bs s) i = if i < s.textlen.toNat then bs.getD i 0 else textByte s i := by
  rw [textByte_storeText, hbs]

theorem textByte_storeText_of_textlen_le {bs : List Byte} {s : State} (hbs : bs.length = s.textlen.toNat) {i : Nat}
    (hi : s.textlen.toNat ≤ i) : textByte (storeText bs s) i = textByte s i :=
  (textByte_storeText_textlen hbs i).trans (if_neg hi.not_gt)

end TextBuffer

section GcmFrames
/-! ## What the GCM commands leave unchanged (43_gcm_commands.md R210, R211) -/

theorem lengthsLegal_eq_false_iff (s : State) :
    lengthsLegal s = false ↔ 256 < s.aadlen.toNat ∨ 16384 < s.textlen.toNat := by
  rw [← Bool.not_eq_true, lengthsLegal_iff, not_and_or, not_le, not_le, Config.aadMax, Config.textMax]

/-- GCM_SEAL leaves BOUT and the bytes of TEXT_BUF that are not of the text. -/
theorem execGcmSeal_bout_text (s t : State) (h : exec .gcmSeal s = .next t) :
    t.bout = s.bout ∧ ∀ j, s.textlen.toNat ≤ j → textByte t j = textByte s j := by
  rcases execGcmSeal_cases s t h with ⟨_, _, rfl⟩ | ⟨_, _, rfl⟩ | ⟨_, rfl⟩
  · exact ⟨rfl, fun _ => textByte_storeText_of_textlen_le (sealed_length s)⟩
  · exact ⟨rfl, fun _ _ => rfl⟩
  · exact ⟨rfl, fun _ _ => rfl⟩

/-- GCM_OPEN leaves BOUT, TAG and the bytes of TEXT_BUF that are not of the text. -/
theorem execGcmOpen_bout_tag_text (s t : State) (h : exec .gcmOpen s = .next t) :
    t.bout = s.bout ∧ t.tag = s.tag ∧ ∀ j, s.textlen.toNat ≤ j → textByte t j = textByte s j := by
  rcases execGcmOpen_cases s t h with ⟨p, _, _, hp, rfl⟩ | ⟨_, _, _, rfl⟩ | ⟨_, _, rfl⟩ | ⟨_, rfl⟩
  · exact ⟨rfl, rfl, fun _ => textByte_storeText_of_textlen_le (opened_length s p hp)⟩
  · exact ⟨rfl, rfl, fun _ _ => rfl⟩
  · exact ⟨rfl, rfl, fun _ _ => rfl⟩
  · exact ⟨rfl, rfl, fun _ _ => rfl⟩

end GcmFrames

section GcmCommandObligations
/-! ## The obligations of 43_gcm_commands.md -/

/-- Settles O27: with a schedule and legal lengths the ciphertext, as long as the text, replaces it; the checks of SV
and of the lengths end the two other cases. -/
theorem gcmSealResult : Obligations.GcmSealResult := by
  refine fun s => ⟨fun hsv haad htext => ?_, execGcmSeal_notReady s, fun hsv hlong => ?_⟩
  · have hexec := execGcmSeal_ok s hsv ((lengthsLegal_iff s).mpr ⟨haad, htext⟩)
    exact ⟨_, hexec, ⟨rfl, rfl, rfl⟩, rfl, sealed_length s, textByte_storeText_textlen (sealed_length s),
      exec_sameOperands .gcmSeal s _ hexec, exec_sameSchedule .gcmSeal s _ nofun hexec, rfl,
      exec_sameOutside .gcmSeal s _ hexec⟩
  · exact execGcmSeal_length s hsv ((lengthsLegal_eq_false_iff s).mpr hlong)

/-- Settles O28: with a schedule and legal lengths TAG decides between the plaintext, as long as the text, and
AUTH_FAIL; the checks of SV and of the lengths end the two other cases. -/
theorem gcmOpenResult : Obligations.GcmOpenResult := by
  refine fun s => ⟨fun p hsv haad htext hp => ?_, fun hsv haad htext hnone => ?_, execGcmOpen_notReady s,
    fun hsv hlong => ?_⟩
  · have hlen : p.length = s.textlen.toNat := opened_length s p hp
    have hexec := execGcmOpen_ok s p hsv ((lengthsLegal_iff s).mpr ⟨haad, htext⟩) hp
    exact ⟨_, hexec, ⟨rfl, rfl, rfl⟩, hlen, textByte_storeText_textlen hlen, rfl,
      exec_sameOperands .gcmOpen s _ hexec, exec_sameSchedule .gcmOpen s _ nofun hexec, rfl,
      exec_sameOutside .gcmOpen s _ hexec⟩
  · exact execGcmOpen_authFail s hsv ((lengthsLegal_iff s).mpr ⟨haad, htext⟩) hnone
  · exact execGcmOpen_length s hsv ((lengthsLegal_eq_false_iff s).mpr hlong)

/-- Settles O31: what no command writes, what EXPAND_KEY alone writes, and what each GCM command leaves. -/
theorem gcmCommandsFrame : Obligations.GcmCommandsFrame := by
  intro i s t hi h
  have hexpand : i ≠ .expandKey := by rcases hi with rfl | rfl <;> decide
  refine ⟨exec_sameOperands i s t h, exec_sameSchedule i s t hexpand h, ?_⟩
  rcases hi with rfl | rfl
  · obtain ⟨hbout, htext⟩ := execGcmSeal_bout_text s t h
    exact ⟨hbout, nofun, htext, exec_sameOutside _ s t h⟩
  · obtain ⟨hbout, htag, htext⟩ := execGcmOpen_bout_tag_text s t h
    exact ⟨hbout, fun _ => htag, htext, exec_sameOutside _ s t h⟩

end GcmCommandObligations

end Sys2Proof.Machine

/-! # Completion and result codes: proofs of the statements of 60_exceptions.md. -/

namespace Sys2Proof.Machine

open Sys2Proof

section Pending
/-! ## What ends the pending state (60_exceptions.md R236) -/

theorem nextTurn_of_no_turns {s : State} (hb : s.busy = true) (ht : s.turns = []) : nextTurn s = .engine := by
  simp [nextTurn, defaultTurn, ht, hb]

theorem tookTurn_of_turns {s : State} {tn : Turn} {ts : List Turn} (ht : s.turns = tn :: ts) :
    tookTurn s = { s with turns := ts } := by
  rw [tookTurn, ht, List.tail_cons]

theorem tookTurn_of_no_turns {s : State} (ht : s.turns = []) : tookTurn s = s := by
  rw [tookTurn, ht, List.tail_nil, ← ht]

/-- An Engine turn on a pending word completes the command it decodes to, or an illegal word. -/
theorem engineTurn_pending_cases {s : State} (hb : s.busy = true) :
    (∃ i, decode s.pend = .ok i ∧ engineTurn s = exec i s) ∨
    (∃ e, decode s.pend = .error e ∧ engineTurn s = .next (complete .illegalCmd s)) := by
  rcases engineTurn_cases s with ⟨hidle, _⟩ | ⟨_, hcommand⟩ | ⟨_, hillegal⟩
  · simp [hidle] at hb
  · exact .inl hcommand
  · exact .inr hillegal

/-- The Engine's turn on a pending word is a completion, whatever the word is. -/
theorem engineTurn_pending {s : State} (hb : s.busy = true) :
    ∃ code u, engineTurn s = .next (complete code u) := by
  rcases engineTurn_pending_cases hb with ⟨i, _, e⟩ | ⟨_, _, e⟩
  · obtain ⟨⟨code, u⟩, hexec⟩ := exec_eq i s
    exact ⟨code, u, e.trans hexec⟩
  · exact ⟨.illegalCmd, s, e⟩

/-- Every step that goes on takes exactly its own turn off the list (log 1). -/
theorem step_turns {s t : State} (h : step s = .next t) : t.turns = s.turns.tail := by
  rcases step_next s t h with ⟨_, rfl⟩ | ⟨_, _, rfl⟩ | ⟨i, _, e⟩ | ⟨_, _, rfl⟩ | ⟨_, _, e⟩ | ⟨off, v, _, e⟩
  · rfl
  · rfl
  · obtain ⟨_, _, _, hturns⟩ := exec_sameOutside i (tookTurn s) t e
    exact hturns
  · rfl
  · rw [e]
  · rw [e]; exact memWrite_turns off v (tookTurn s)

/-- The Host cannot end a pending command (70_reset_and_hazards.md R276). -/
theorem step_of_host_busy {s t : State} (h : step s = .next t) (hn : nextTurn s = .host) (hb : s.busy = true) :
    t.busy = true := by
  by_contra hidle
  rcases step_busy_falls h hb (Bool.eq_false_of_not_eq_true hidle) with ⟨hengine, _⟩ | hreset
  · cases hn.symm.trans hengine
  · cases hn.symm.trans hreset

end Pending

section ResultCodes
/-! ## The code a completion reports and what it leaves then (60_exceptions.md R230, R232, R234) -/

theorem execExpandKey_err {s t : State} (h : exec .expandKey s = .next t) :
    t.err = if s.keylen = 16 ∨ s.keylen = 24 ∨ s.keylen = 32 then 0 else 2 := by
  simp only [← keyLengthLegal_keyLength_iff]
  rcases execExpandKey_cases s t h with ⟨hlegal, rfl⟩ | ⟨hillegal, rfl⟩
  · rw [if_pos hlegal]; rfl
  · rw [if_neg (by simp [hillegal])]; rfl

theorem execEncryptBlock_err {s t : State} (h : exec .encryptBlock s = .next t) :
    t.err = if s.sv = false then 3 else 0 := by
  rcases execEncryptBlock_cases s t h with ⟨hsv, rfl⟩ | ⟨hsv, rfl⟩ <;> simp [hsv, ResultCode.bits]

theorem execDecryptBlock_err {s t : State} (h : exec .decryptBlock s = .next t) :
    t.err = if s.sv = false then 3 else 0 := by
  rcases execDecryptBlock_cases s t h with ⟨hsv, rfl⟩ | ⟨hsv, rfl⟩ <;> simp [hsv, ResultCode.bits]

theorem execGcmSeal_err {s t : State} (h : exec .gcmSeal s = .next t) :
    t.err = if s.sv = false then 3 else if 256 < s.aadlen.toNat ∨ 16384 < s.textlen.toNat then 4 else 0 := by
  simp only [← lengthsLegal_eq_false_iff]
  rcases execGcmSeal_cases s t h with ⟨hsv, hlen, rfl⟩ | ⟨hsv, hlen, rfl⟩ | ⟨hsv, rfl⟩
  · simp [hsv, hlen, ResultCode.bits]
  · simp [hsv, hlen, ResultCode.bits]
  · simp [hsv, ResultCode.bits]

/-- GCM_OPEN computes a plaintext exactly when TAG is the tag computed (42_gcm_core.md R191). -/
theorem opened_isSome_iff (s : State) :
    (opened s).isSome = true ↔
      Gcm.tagOf s.sched s.nr.toNat s.nonce (aadOperand s) (textOperand s) = s.tag := by
  rw [opened, Gcm.gcmAd, rounds, Option.isSome_ite]

theorem execGcmOpen_err {s t : State} (h : exec .gcmOpen s = .next t) :
    t.err = if s.sv = false then 3 else if 256 < s.aadlen.toNat ∨ 16384 < s.textlen.toNat then 4
      else if Gcm.tagOf s.sched s.nr.toNat s.nonce (aadOperand s) (textOperand s) = s.tag then 0 else 5 := by
  simp only [← lengthsLegal_eq_false_iff, ← opened_isSome_iff]
  rcases execGcmOpen_cases s t h with
    ⟨p, hsv, hlen, hopen, rfl⟩ | ⟨hsv, hlen, hopen, rfl⟩ | ⟨hsv, hlen, rfl⟩ | ⟨hsv, rfl⟩
  · simp [hsv, hlen, hopen, ResultCode.bits]
  · simp [hsv, hlen, hopen, ResultCode.bits]
  · simp [hsv, hlen, ResultCode.bits]
  · simp [hsv, ResultCode.bits]

/-- What an error leaves: EXPAND_KEY's clears the schedule, any other is the STATUS update alone. -/
theorem exec_error {i : Instr} {s t : State} (h : exec i s = .next t) (he : t.err ≠ 0) :
    t = complete .invalidKeyLength { s with sv := false, nr := 0 } ∨ ∃ code, t = complete code s := by
  cases i with
  | expandKey =>
    rcases execExpandKey_cases s t h with ⟨_, rfl⟩ | ⟨_, e⟩
    · exact absurd rfl he
    · exact .inl e
  | encryptBlock =>
    rcases execEncryptBlock_cases s t h with ⟨_, rfl⟩ | ⟨_, e⟩
    · exact absurd rfl he
    · exact .inr ⟨_, e⟩
  | decryptBlock =>
    rcases execDecryptBlock_cases s t h with ⟨_, rfl⟩ | ⟨_, e⟩
    · exact absurd rfl he
    · exact .inr ⟨_, e⟩
  | gcmSeal =>
    rcases execGcmSeal_cases s t h with ⟨_, _, rfl⟩ | ⟨_, _, e⟩ | ⟨_, e⟩
    · exact absurd rfl he
    · exact .inr ⟨_, e⟩
    · exact .inr ⟨_, e⟩
  | gcmOpen =>
    rcases execGcmOpen_cases s t h with ⟨_, _, _, _, rfl⟩ | ⟨_, _, _, e⟩ | ⟨_, _, e⟩ | ⟨_, e⟩
    · exact absurd rfl he
    · exact .inr ⟨_, e⟩
    · exact .inr ⟨_, e⟩
    · exact .inr ⟨_, e⟩

/-- What an Engine turn leaves that reports an error, of a command or of an illegal word. -/
theorem engineTurn_error {s t : State} (hb : s.busy = true) (h : engineTurn s = .next t) (he : t.err ≠ 0) :
    t = complete .invalidKeyLength { s with sv := false, nr := 0 } ∨ ∃ code, t = complete code s := by
  rcases engineTurn_pending_cases hb with ⟨_, _, e⟩ | ⟨_, _, e⟩
  · exact exec_error (e.symm.trans h) he
  · cases e.symm.trans h
    exact .inr ⟨.illegalCmd, rfl⟩

end ResultCodes

section ExceptionObligations
/-! ## The obligations of 60_exceptions.md -/

/-- Settles O5: with the Engine's turn listed or none, the next step is the completion of the decoded command. -/
theorem stepRunsTheDecodedCommand : Obligations.StepRunsTheDecodedCommand := by
  refine fun s i hb hd => ⟨fun ts ht => ?_, fun ht => ?_⟩
  · rw [step_of_completes ⟨nextTurn_of_turns ht, hb, hd⟩, tookTurn_of_turns ht]
  · rw [step_of_completes ⟨nextTurn_of_no_turns hb ht, hb, hd⟩, tookTurn_of_no_turns ht]

/-- Settles O7: the Engine's turn is a completion with one of the six codes. -/
theorem everyCompletionEndsPending : Obligations.EveryCompletionEndsPending := by
  intro s hb
  obtain ⟨code, u, e⟩ := engineTurn_pending hb
  exact ⟨_, e, rfl, rfl, code.bits_le⟩

/-- Settles O23, by induction on the listed Host turns: each leaves the command pending, and with none left the Engine
moves. -/
theorem pendingCommandCompletes : Obligations.PendingCommandCompletes := by
  intro s n
  induction n generalizing s with
  | zero =>
    intro v hb ht hrun
    obtain ⟨t, hstep, hend⟩ := run_succ 0 s v hrun
    obtain rfl := run_zero t v hend
    obtain ⟨_, hbusy, hdone, _⟩ := step_of_completing hstep ⟨nextTurn_of_no_turns hb ht, hb⟩
    exact ⟨hbusy, hdone⟩
  | succ n ih =>
    intro v hb ht hrun
    obtain ⟨t, hstep, hrest⟩ := run_succ (n + 1) s v hrun
    have hbusy : t.busy = true := step_of_host_busy hstep (nextTurn_of_turns ht) hb
    have hturns : t.turns = List.replicate n .host := by rw [step_turns hstep, ht]; rfl
    exact ih t v hbusy hturns hrest

/-- Settles O32: an error writes STATUS alone, and SV and NR of it for code 2 only. -/
theorem errorsWriteNoDataOutput : Obligations.ErrorsWriteNoDataOutput := by
  intro s t hb h he
  rcases engineTurn_error hb h he with rfl | ⟨code, rfl⟩
  · exact ⟨rfl, fun hne => absurd rfl hne, rfl, rfl, fun _ => rfl⟩
  · exact ⟨rfl, fun _ => ⟨rfl, rfl⟩, rfl, rfl, fun _ => rfl⟩

/-- Settles O33: each command checks its causes in the order of their codes, and an illegal word has only the first. -/
theorem resultCodePriority : Obligations.ResultCodePriority := by
  intro s t hb h
  rcases engineTurn_pending_cases hb with ⟨i, hd, e⟩ | ⟨_, hd, e⟩
  · have hexec : exec i s = .next t := e.symm.trans h
    rw [hd]
    cases i with
    | expandKey => exact execExpandKey_err hexec
    | encryptBlock => exact execEncryptBlock_err hexec
    | decryptBlock => exact execDecryptBlock_err hexec
    | gcmSeal => exact execGcmSeal_err hexec
    | gcmOpen => exact execGcmOpen_err hexec
  · cases e.symm.trans h
    rw [hd]
    rfl

end ExceptionObligations

end Sys2Proof.Machine

/-! # Reset and hazards: proofs of the statements of 70_reset_and_hazards.md. -/

namespace Sys2Proof.Machine

open Sys2Proof

section PendingAccess
/-! ## Bus accesses while a command is pending (70_reset_and_hazards.md R276, R277) -/

/-- While BUSY = 1 a write to any offset but those of CTRL and STATUS is dropped and sets OVR (R276). -/
theorem memWrite_dropped {off : Nat} (v : Word) {s : State} (hb : s.busy = true) (h0 : off ≠ 0x0000)
    (h4 : off ≠ 0x0004) : memWrite off v s = { s with ovr := true } := by
  simp [memWrite, hb, h0, h4]

/-- While BUSY = 1 a write reaches CTRL.IE, DONE and OVR at most (R276). -/
theorem memWrite_of_busy (off : Nat) (v : Word) {s : State} (hb : s.busy = true) :
    memWrite off v s = { s with
      ie := (memWrite off v s).ie, doneBit := (memWrite off v s).doneBit, ovr := (memWrite off v s).ovr } := by
  rcases memWrite_cases off v s with ⟨_, e⟩ | ⟨_, e⟩ | ⟨_, _, _, e⟩ | ⟨hidle, _⟩
  · rw [e]; rfl
  · rw [e]; rfl
  · rw [e]
  · cases hb.symm.trans hidle

/-- The outputs whose reads are free while BUSY = 1 are BOUT, TAG and TEXT_BUF (R277). -/
theorem isOutput_iff (off : Nat) :
    isOutput off = true ↔
      ArrReg.bout.holds off = true ∨ ArrReg.tag.holds off = true ∨ ArrReg.textBuf.holds off = true := by
  simp [isOutput, or_assoc]

/-- A read of an output while BUSY = 1 takes the next free value (R277; log 2). -/
theorem memRead_of_output {off : Nat} {s : State} (hb : s.busy = true) (ho : isOutput off = true) :
    memRead off s = (Config.busyRead s.busyReads, { s with busyReads := s.busyReads + 1 }) := by
  rw [memRead, hb, ho]; rfl

/-- While a command is pending STATUS shows BUSY = 1, DONE = 0 and ERR = 0 (R277). -/
theorem statusWord_pending {s : State} (hb : s.busy = true) (hi : BlockInv s) :
    statusWord s &&& 0x000000F3 = 0x00000001 := by
  obtain ⟨herr, hdone⟩ := hi.busy_clear hb
  refine BitVec.eq_of_getLsbD_eq fun i hi => ?_
  rw [BitVec.getLsbD_and, statusWord_getLsbD, hb, hdone, herr]
  interval_cases i <;> simp

end PendingAccess

section PendingHost
/-! ## Host turns while a command is pending (70_reset_and_hazards.md R276, R280) -/

/-- Settles O21: only a Host write can change a register, and a pending command lets none through to an operand. -/
theorem operandsStandStillWhilePending : Obligations.OperandsStandStillWhilePending := by
  intro s t hb h
  rcases hostTurn_next s t h with e | ⟨_, _, _, _, _, _, e⟩ | ⟨off, _, v, _, _, e⟩
  · rw [e]
  · rw [e]
  · rw [memWrite_of_busy off v hb] at e
    rw [e]

end PendingHost

section Unread
/-! ## What a completion does not read (70_reset_and_hazards.md R280, R281) -/

/-- `s` with everything that no cipher or GCM command reads taken from `u`: CTRL.IE, DONE and OVR, the key registers, the
Host, the coming turns and the count of free values. Of these EXPAND_KEY reads the key registers. -/
def withUnreadOf (u s : State) : State :=
  { s with
    ie := u.ie, doneBit := u.doneBit, ovr := u.ovr, keylen := u.keylen, key := u.key
    busyReads := u.busyReads, host := u.host, turns := u.turns }

/-- A command completes with the same code and the same writes whatever stands in the components it does not read. -/
theorem exec_withUnreadOf (i : Instr) (u s : State) (hk : i = .expandKey → u.key = s.key ∧ u.keylen = s.keylen) :
    ∃ code r, exec i s = .next (complete code r) ∧
      exec i (withUnreadOf u s) = .next (complete code (withUnreadOf u r)) := by
  cases i with
  | expandKey =>
    obtain ⟨hkey, hkeylen⟩ := hk rfl
    have hlength : keyLength (withUnreadOf u s) = keyLength s := congrArg BitVec.toNat hkeylen
    have hoperand : keyOperand (withUnreadOf u s) = keyOperand s := by
      rw [keyOperand, hlength]; exact congrArg (·.toList.take (keyLength s)) hkey
    cases hl : keyLengthLegal (keyLength s)
    · exact ⟨_, _, execExpandKey_invalid s hl, execExpandKey_invalid (withUnreadOf u s) (hlength ▸ hl)⟩
    · refine ⟨_, _, execExpandKey_ok s hl, ?_⟩
      rw [execExpandKey_ok _ (hlength ▸ hl), hlength, hoperand]; rfl
  | encryptBlock =>
    cases hsv : s.sv
    · exact ⟨_, _, execEncryptBlock_notReady s hsv, execEncryptBlock_notReady (withUnreadOf u s) hsv⟩
    · exact ⟨_, _, execEncryptBlock_ok s hsv, execEncryptBlock_ok (withUnreadOf u s) hsv⟩
  | decryptBlock =>
    cases hsv : s.sv
    · exact ⟨_, _, execDecryptBlock_notReady s hsv, execDecryptBlock_notReady (withUnreadOf u s) hsv⟩
    · exact ⟨_, _, execDecryptBlock_ok s hsv, execDecryptBlock_ok (withUnreadOf u s) hsv⟩
  | gcmSeal =>
    cases hsv : s.sv
    · exact ⟨_, _, execGcmSeal_notReady s hsv, execGcmSeal_notReady (withUnreadOf u s) hsv⟩
    cases hl : lengthsLegal s
    · exact ⟨_, _, execGcmSeal_length s hsv hl, execGcmSeal_length (withUnreadOf u s) hsv hl⟩
    · exact ⟨_, _, execGcmSeal_ok s hsv hl, execGcmSeal_ok (withUnreadOf u s) hsv hl⟩
  | gcmOpen =>
    cases hsv : s.sv
    · exact ⟨_, _, execGcmOpen_notReady s hsv, execGcmOpen_notReady (withUnreadOf u s) hsv⟩
    cases hl : lengthsLegal s
    · exact ⟨_, _, execGcmOpen_length s hsv hl, execGcmOpen_length (withUnreadOf u s) hsv hl⟩
    cases ho : opened s with
    | none => exact ⟨_, _, execGcmOpen_authFail s hsv hl ho, execGcmOpen_authFail (withUnreadOf u s) hsv hl ho⟩
    | some p => exact ⟨_, _, execGcmOpen_ok s p hsv hl ho, execGcmOpen_ok (withUnreadOf u s) p hsv hl ho⟩

/-- The same of the completion step, which completes an illegal word too (60_exceptions.md R236). -/
theorem completeStep_withUnreadOf {u s : State} (hkey : u.key = s.key) (hkeylen : u.keylen = s.keylen) :
    ∃ code r, completeStep s = .next (complete code r) ∧
      completeStep (withUnreadOf u s) = .next (complete code (withUnreadOf u r)) := by
  have hpend : (withUnreadOf u s).pend = s.pend := rfl
  rw [completeStep, completeStep, hpend]
  cases decode s.pend with
  | ok i => exact exec_withUnreadOf i u s fun _ => ⟨hkey, hkeylen⟩
  | error _ => exact ⟨.illegalCmd, s, rfl, rfl⟩

/-- The completion step leaves the operands, as each command does (30_encoding.md R95, R97). -/
theorem completeStep_sameOperands {s t : State} (h : completeStep s = .next t) : SameOperands s t := by
  rw [completeStep] at h
  cases hd : decode s.pend with
  | ok i => rw [hd] at h; exact exec_sameOperands i s t h
  | error _ =>
    rw [hd] at h
    cases h
    exact ⟨rfl, rfl, rfl, rfl, rfl, rfl, rfl, rfl, rfl, fun _ => rfl⟩

end Unread

section Latency
/-! ## Host turns between acceptance and completion (70_reset_and_hazards.md R280, R283) -/

/-- `t` is `s` but for CTRL.IE, DONE, OVR, the Host, the coming turns and the count of free values: all that Host turns can
change while a command is pending (R276, R280). -/
def StoodStill (s t : State) : Prop :=
  t = { s with
    ie := t.ie, doneBit := t.doneBit, ovr := t.ovr, busyReads := t.busyReads, host := t.host, turns := t.turns }

theorem StoodStill.trans {s t u : State} (hst : StoodStill s t) (htu : StoodStill t u) : StoodStill s u := by
  unfold StoodStill at hst htu ⊢
  rw [hst] at htu
  exact htu

theorem StoodStill.busy_eq {s t : State} (h : StoodStill s t) : t.busy = s.busy := by
  unfold StoodStill at h; rw [h]

theorem StoodStill.key_eq {s t : State} (h : StoodStill s t) : t.key = s.key := by
  unfold StoodStill at h; rw [h]

theorem StoodStill.keylen_eq {s t : State} (h : StoodStill s t) : t.keylen = s.keylen := by
  unfold StoodStill at h; rw [h]

/-- Nothing that a completion reads has changed. -/
theorem StoodStill.eq_withUnreadOf {s t : State} (h : StoodStill s t) : t = withUnreadOf t s := by
  rw [withUnreadOf, h.key_eq, h.keylen_eq]
  exact h

/-- A Host step while a command is pending. -/
theorem step_of_host_stoodStill {s t : State} (h : step s = .next t) (hn : nextTurn s = .host) (hb : s.busy = true) :
    StoodStill s t := by
  have hturn : hostTurn (tookTurn s) = .next t := (step_of_host hn).symm.trans h
  have hstill := operandsStandStillWhilePending (tookTurn s) t hb hturn
  rw [StoodStill, step_turns h]
  exact hstill

/-- After the Host turns listed before an Engine turn the command still stands as it was accepted, and the Engine's turn
completes it. -/
theorem run_host_turns_engine (n : Nat) (s : State) (ts : List Turn) (v : State) (hb : s.busy = true)
    (ht : s.turns = List.replicate n .host ++ .engine :: ts) (hrun : Sys2Proof.core.run (n + 1) s = .next v) :
    ∃ u, StoodStill s u ∧ u.turns = ts ∧ completeStep u = .next v := by
  induction n generalizing s with
  | zero =>
    obtain ⟨t, hstep, hend⟩ := run_succ 0 s v hrun
    obtain rfl := run_zero t v hend
    rw [step_of_engine (nextTurn_of_turns ht), engineTurn, if_pos hb] at hstep
    exact ⟨tookTurn s, rfl, by rw [tookTurn_of_turns ht], hstep⟩
  | succ n ih =>
    obtain ⟨t, hstep, hrest⟩ := run_succ (n + 1) s v hrun
    have hstill : StoodStill s t := step_of_host_stoodStill hstep (nextTurn_of_turns ht) hb
    have hturns : t.turns = List.replicate n .host ++ .engine :: ts := by rw [step_turns hstep, ht]; rfl
    obtain ⟨u, htu, hu, hcomplete⟩ := ih t (hstill.busy_eq.trans hb) hturns hrest
    exact ⟨u, hstill.trans htu, hu, hcomplete⟩

end Latency

section DrawnBytes
/-! ## The buffers' drawn bytes (70_reset_and_hazards.md R271) -/

/-- A buffer is another one after a store of bytes, of none at all perhaps. -/
def StoredInto (m m' : Memory) : Prop := ∃ a bs, m' = Memory.storeList m a bs

theorem StoredInto.refl (m : Memory) : StoredInto m m := ⟨0, [], rfl⟩

/-- An index unwritten after a store was unwritten before it (R271). -/
theorem StoredInto.lookup_eq_none {m m' : Memory} (h : StoredInto m m') {i : Nat} (hi : Memory.lookup m' i = none) :
    Memory.lookup m i = none := by
  obtain ⟨a, bs, rfl⟩ := h
  rw [lookup_storeList] at hi
  split at hi
  · rename_i hin
    rw [List.getElem?_eq_none_iff] at hi
    omega
  · exact hi

/-- The reset event the drawn bytes belong to is the same one, and the buffers have changed by stores alone. -/
def BuffersStored (s t : State) : Prop :=
  t.epoch = s.epoch ∧ StoredInto s.aadBuf t.aadBuf ∧ StoredInto s.textBuf t.textBuf

theorem BuffersStored.refl (s : State) : BuffersStored s s := ⟨rfl, .refl _, .refl _⟩

theorem exec_buffersStored (i : Instr) (s t : State) (h : exec i s = .next t) : BuffersStored s t := by
  have hsame := BuffersStored.refl s
  have htext (bs : List Byte) : BuffersStored s (storeText bs s) := ⟨rfl, .refl _, 0, bs, rfl⟩
  cases i with
  | expandKey => rcases execExpandKey_cases s t h with ⟨_, rfl⟩ | ⟨_, rfl⟩ <;> exact hsame
  | encryptBlock => rcases execEncryptBlock_cases s t h with ⟨_, rfl⟩ | ⟨_, rfl⟩ <;> exact hsame
  | decryptBlock => rcases execDecryptBlock_cases s t h with ⟨_, rfl⟩ | ⟨_, rfl⟩ <;> exact hsame
  | gcmSeal =>
    rcases execGcmSeal_cases s t h with ⟨_, _, rfl⟩ | ⟨_, _, rfl⟩ | ⟨_, rfl⟩
    · exact htext _
    · exact hsame
    · exact hsame
  | gcmOpen =>
    rcases execGcmOpen_cases s t h with ⟨p, _, _, _, rfl⟩ | ⟨_, _, _, rfl⟩ | ⟨_, _, rfl⟩ | ⟨_, rfl⟩
    · exact htext p
    · exact hsame
    · exact hsame
    · exact hsame

theorem writeArray_buffersStored (r : ArrReg) (i : Nat) (w : ByteWord) (s : State) :
    BuffersStored s (writeArray r i w s) := by
  cases r with
  | key | nonce | tag | bin | bout => exact BuffersStored.refl s
  | aadBuf => exact ⟨rfl, ⟨i, w.toList, rfl⟩, .refl _⟩
  | textBuf => exact ⟨rfl, .refl _, i, w.toList, rfl⟩

theorem memWrite_buffersStored (off : Nat) (v : Word) (s : State) : BuffersStored s (memWrite off v s) := by
  have hsame := BuffersStored.refl s
  rcases memWrite_cases off v s with ⟨_, e⟩ | ⟨_, e⟩ | ⟨_, _, _, e⟩ |
    ⟨_, ⟨_, e⟩ | ⟨_, e⟩ | ⟨_, e⟩ | ⟨_, e⟩ | ⟨r, _, _, e⟩ | e⟩ <;> rw [e]
  any_goals exact hsame
  exact writeArray_buffersStored r _ _ s

/-- No step but a reset event draws a byte anew (R271). -/
theorem step_buffersStored {s t : State} (h : step s = .next t) (hr : nextTurn s ≠ .reset) : BuffersStored s t := by
  have hsame := BuffersStored.refl s
  rcases step_next s t h with ⟨hreset, _⟩ | ⟨_, _, rfl⟩ | ⟨i, _, e⟩ | ⟨_, _, rfl⟩ | ⟨_, _, e⟩ | ⟨off, v, _, e⟩
  · exact absurd hreset hr
  · exact hsame
  · exact exec_buffersStored i (tookTurn s) t e
  · exact hsame
  · rw [e]; exact hsame
  · rw [e]; exact memWrite_buffersStored off v (tookTurn s)

/-- An unwritten byte of AAD_BUF is the one drawn at the reset event (R271). -/
theorem aadByte_of_lookup_none {s : State} {i : Nat} (h : Memory.lookup s.aadBuf i = none) :
    aadByte s i = Config.drawnAad s.epoch i := by
  rw [aadByte, h, Option.getD_none]

/-- An unwritten byte of TEXT_BUF is the one drawn at the reset event (R271). -/
theorem textByte_of_lookup_none {s : State} {i : Nat} (h : Memory.lookup s.textBuf i = none) :
    textByte s i = Config.drawnText s.epoch i := by
  rw [textByte, h, Option.getD_none]

end DrawnBytes

section HazardObligations
/-! ## The obligations of 70_reset_and_hazards.md -/

/-- Settles O19: the bus passes an aligned write on to MemWrite, whose case BUSY = 1 drops it, and a misaligned one
nowhere. -/
theorem writesWhilePending : Obligations.WritesWhilePending := by
  intro s off v hb hoff
  refine ⟨fun hal h0 h4 => ?_, ?_, ?_, fun hmis => ?_⟩
  · rw [busAccess_write_word off v s hoff hal, memWrite_dropped v hb h0 h4]
  · rw [busAccess_write_word _ v s (by decide) rfl]; rfl
  · rw [busAccess_write_word _ v s (by decide) rfl, ← writeStatus_eq]; rfl
  · obtain ⟨hacc, _⟩ := illegalAccessGetsBusError s (.write v) none off 4 hoff (.inr hmis)
    exact hacc

/-- Settles O20, by the two cases of MemRead: an output while BUSY = 1, or any other read. -/
theorem readsWhilePending : Obligations.ReadsWhilePending := by
  intro s off hoff hal
  rw [busAccess_read_word off s hoff hal]
  refine ⟨fun hb ho => ?_, fun _ hbout htag htext => ?_, statusWord_pending, fun hidle => ?_⟩
  · rw [memRead_of_output hb ((isOutput_iff off).mpr ho)]
  · rw [memRead_of_not_output off s (by simp [isOutput, hbout, htag, htext])]
  · rw [memRead_idle off s hidle]

/-- Settles O22: the Host turns change nothing the completion reads, so it ends with the same code and writes. -/
theorem latencyDoesNotChangeTheResult : Obligations.LatencyDoesNotChangeTheResult := by
  intro s n ts v hb ht hrun
  obtain ⟨u, hstill, hturns, hcomplete⟩ := run_host_turns_engine n s ts v hb ht hrun
  obtain ⟨code, r, hnow, hlater⟩ := completeStep_withUnreadOf hstill.key_eq hstill.keylen_eq
  rw [← hstill.eq_withUnreadOf, hcomplete] at hlater
  cases hlater
  obtain ⟨_, _, _, _, _, hkey, _⟩ := completeStep_sameOperands hnow
  exact ⟨_, hnow, rfl, rfl, rfl, rfl, rfl, rfl, rfl, rfl, hturns, fun _ => rfl, hstill.key_eq.trans hkey.symm, rfl, rfl,
    fun _ => rfl⟩

/-- Settles O34: the key registers are among what the command does not read, and no command writes them. -/
theorem keyRegistersDoNotReachCipherCommands : Obligations.KeyRegistersDoNotReachCipherCommands := by
  intro i s t k n hi h
  obtain ⟨code, r, hs, hu⟩ := exec_withUnreadOf i { s with key := k, keylen := n } s fun he => absurd he hi
  obtain rfl : complete code r = t := by cases hs.symm.trans h; rfl
  obtain ⟨hie, hovr, _⟩ := exec_sameOperands i s _ h
  obtain ⟨_, hreads, hhost, hturns⟩ := exec_sameOutside i s _ h
  refine hu.trans (congrArg _ ?_)
  rw [withUnreadOf, ← hie, ← hovr, ← hreads, ← hhost, ← hturns]
  rfl

/-- Settles O50: a step that is no reset keeps the reset event's number and only stores bytes, and a store leaves no
index unwritten that was written. -/
theorem drawnBytesStay : Obligations.DrawnBytesStay := by
  intro s t i hr h
  obtain ⟨hepoch, haad, htext⟩ := step_buffersStored h hr
  refine ⟨fun hi => ?_, fun hi => ?_⟩
  · have hs := haad.lookup_eq_none hi
    rw [aadByte_of_lookup_none hi, aadByte_of_lookup_none hs, hepoch]
    exact ⟨hs, rfl, rfl⟩
  · have hs := htext.lookup_eq_none hi
    rw [textByte_of_lookup_none hi, textByte_of_lookup_none hs, hepoch]
    exact ⟨hs, rfl, rfl⟩

/-- Settles O52: the step is the reset event, which takes the block's components from the state right after it. -/
theorem resetEventGivesResetValues : Obligations.ResetEvent := by
  intro s ts ht
  have hstep : step s = .next (resetEvent (tookTurn s)) := by rw [step_eq, nextTurn_of_turns ht]; rfl
  have hbytes (r : ArrReg) (i : Nat) :
      arrayByte r i (resetEvent (tookTurn s)) = arrayByte r i (State.resetAt (s.epoch + 1)) := by cases r <;> rfl
  refine ⟨_, hstep, rfl, rfl, rfl, rfl, rfl, rfl, rfl, rfl, rfl, rfl, fun r i ha hx _ => ?_, fun _ => rfl, fun _ => rfl,
    rfl, ?_, rfl⟩
  · rw [hbytes, arrayByte_resetAt _ r i ha hx]
  · rw [tookTurn_of_turns ht]; rfl

end HazardObligations

end Sys2Proof.Machine
